-- ==== Sys2Proof/Word.lean ====
section
/-! DEFINITION. The two word types of the block: the byte it stores (00_scope.md R9) and the 11-bit command word
of one cycle (30_encoding.md R60). -/

namespace Sys2Proof

/-- A data byte: all 8 bits are stored and returned as given (R9, R44). -/
abbrev Byte := BitVec 8

/-- The command word of one cycle, `{RST, RD, WR, D[7:0]}` (R60). -/
abbrev CmdWord := BitVec 11

end Sys2Proof
end

