-- ==== Sys2Proof/Config.lean ====
section
/-! DEFINITION. What a build fixes (the address width AW, 00_scope.md R7) and the free values: what the spec leaves
open, each an opaque constant that no proof can evaluate. -/

namespace Sys2Proof

/-- A configuration of the block: the build parameter AW, a natural number with AW >= 1 (R7, D2).
The capacity is C = 2^AW, so a capacity that is no power of two, and the capacity 1, are no values of this type. -/
structure Config where
  /-- AW, the width of an index. -/
  aw : Nat
  /-- C = 1 is no configuration of the block (D2). -/
  aw_pos : 1 ≤ aw
  deriving DecidableEq, Repr

/-- The capacity C = 2^AW (R7, R8). -/
def Config.capacity (c : Config) : Nat := 2 ^ c.aw

/-- The reference configuration of the spec's vectors, AW = 8 and C = 256 (R8).
DESIGN CHOICE: the capacity State.reset has; every definition is for every AW (log entry 1). -/
def Config.reference : Config := ⟨8, by decide⟩

/-- Why a capacity is no configuration of the block (R7, D2, U4). -/
inductive ConfigError where
  /-- The capacity is no power of two. Raised by `Config.ofCapacity`; safe: nothing is modelled there. -/
  | notPowerOfTwo (c : Nat)
  /-- The capacity is 1, that is AW = 0. Raised by `Config.ofCapacity`; safe. -/
  | zeroWidthIndex
  deriving DecidableEq, Repr

/-- The configuration with capacity `c`; any other capacity is refused by name (R7: "the model refuses it"). -/
def Config.ofCapacity (c : Nat) : Except ConfigError Config :=
  if c = 2 ^ Nat.log2 c then
    if h : 1 ≤ Nat.log2 c then .ok ⟨Nat.log2 c, h⟩ else .error .zeroWidthIndex
  else .error (.notPowerOfTwo c)

/-- FREE VALUE. The command word the three drivers present in a cycle for which `State.inputs` says nothing: each
agent's choice of input bits is a free input of the step (R12, R166; log entry 7). -/
opaque Config.freeWord : Nat → CmdWord

/-- FREE VALUE. `count_o` in a cycle in state `Unreset`: a draw under no law (R182; log entry 4). -/
opaque Config.freeCount : (aw : Nat) → Nat → BitVec (aw + 1)

/-- FREE VALUE. `full` in a cycle in state `Unreset` (R182; log entry 4). -/
opaque Config.freeFull : Nat → Bool

/-- FREE VALUE. `empty` in a cycle in state `Unreset` (R182; log entry 4). -/
opaque Config.freeEmpty : Nat → Bool

end Sys2Proof
end

