-- ==== Sys2Proof/Syntax.lean ====
section
/-! DEFINITION. The five commands of the opcode table (30_encoding.md R62), what the three drivers put on the input
ports in one cycle (R67), and a line of assembler text as read, before its operand is checked (R68). -/

namespace Sys2Proof

/-- The five commands, one constructor per row of the opcode table (R62). -/
inductive Instr where
  /-- `NOP`: neither port requests anything (R82). -/
  | nop
  /-- `ENQ d`: the producer offers byte `d` (R100). -/
  | enq (d : Byte)
  /-- `DEQ`: the consumer requests the head byte (R120). -/
  | deq
  /-- `ENQDEQ d`: both in one cycle (R140). -/
  | enqdeq (d : Byte)
  /-- `RST`: reset, the source's `init()` (R80). -/
  | rst
  deriving DecidableEq, Repr

/-- The row's mnemonic in the opcode table. -/
def Instr.mnemonic : Instr → String
  | .nop => "NOP"
  | .enq _ => "ENQ"
  | .deq => "DEQ"
  | .enqdeq _ => "ENQDEQ"
  | .rst => "RST"

/-- The operand byte `D`, for the commands that read it (R61). -/
def Instr.operand : Instr → Option Byte
  | .nop => none
  | .enq d => some d
  | .deq => none
  | .enqdeq d => some d
  | .rst => none

/-- The values of the input ports in one cycle (R32). Each bit is 0 or 1 (D21; log entry 8). -/
structure Input where
  rst : Bool
  wrEn : Bool
  wrData : Byte
  rdEn : Bool
  deriving DecidableEq, Repr

/-- The producer's half of a cycle (R67). -/
inductive WriteHalf where
  | idle
  | enqueue (d : Byte)
  deriving DecidableEq, Repr

/-- The consumer's half of a cycle (R67). -/
inductive ReadHalf where
  | idle
  | dequeue
  deriving DecidableEq, Repr

/-- One command of assembler text with its immediate as read, not yet checked against 0 .. 255 (R68). -/
inductive AsmCommand where
  | nop
  | enq (imm : Nat)
  | deq
  | enqdeq (imm : Nat)
  | rst
  deriving DecidableEq, Repr

end Sys2Proof
end

