-- ==== Sys2Proof/WellFormed.lean ====
section
/-! DEFINITION. The checks the spec puts on terms: an assembler immediate (30_encoding.md R68), a capacity (00_scope.md
R7) and a command. Every command is well formed, because no encoding is reserved or illegal (R64). -/

namespace Sys2Proof

/-- An `<imm8>` is a value in 0 .. 255; any other is refused (R68). -/
def immOk (imm : Nat) : Bool := decide (imm < 256)

/-- A command of assembler text is well formed when its immediate is a byte. -/
def AsmCommand.wf : AsmCommand → Bool
  | .nop => true
  | .enq imm => immOk imm
  | .deq => true
  | .enqdeq imm => immOk imm
  | .rst => true

/-- A capacity is one the block is built with: a power of two, at least 2 (R7, D2). -/
def capacityOk (c : Nat) : Bool := decide (c = 2 ^ Nat.log2 c) && decide (2 ≤ c)

/-- A command is well formed when its operand fits the 8-bit field D (R60, R61). The operand's type says so already:
the check is written for every constructor, and no command fails it (R64). -/
def Instr.wf : Instr → Bool
  | .nop => true
  | .enq d => immOk d.toNat
  | .deq => true
  | .enqdeq d => immOk d.toNat
  | .rst => true

end Sys2Proof
end

