-- ==== Sys2Proof/Decode.lean ====
section
/-! DEFINITION. The decoder of 30_encoding.md R63, the opcode table of R62 as rows, the fields of R60, and, after
them, the encoder of canonical words (R64, R68). -/

namespace Sys2Proof

/-- Field `RST`, bit 10 of the word (R60). -/
def rstBit (w : CmdWord) : Bool := w.getLsbD 10

/-- Field `RD`, bit 9 of the word (R60). -/
def rdBit (w : CmdWord) : Bool := w.getLsbD 9

/-- Field `WR`, bit 8 of the word (R60). -/
def wrBit (w : CmdWord) : Bool := w.getLsbD 8

/-- Field `D`, bits 7 down to 0 of the word (R60, R61). -/
def dataField (w : CmdWord) : Byte := w.extractLsb' 0 8

/-- The decoder (R63): total, `RST` first, then the two request bits. -/
def decode (w : CmdWord) : Instr :=
  if rstBit w then .rst
  else
    match rdBit w, wrBit w with
    | false, false => .nop
    | false, true => .enq (dataField w)
    | true, false => .deq
    | true, true => .enqdeq (dataField w)

/-- One row of the opcode table: the mnemonic, and the bits that select it (R62). -/
structure OpcodeRow where
  mnemonic : String
  matchBits : CmdWord
  mask : CmdWord
  deriving DecidableEq, Repr

/-- The opcode table (R62). -/
def opcodeTable : List OpcodeRow :=
  [⟨"NOP", 0x000, 0x700⟩, ⟨"ENQ", 0x100, 0x700⟩, ⟨"DEQ", 0x200, 0x700⟩, ⟨"ENQDEQ", 0x300, 0x700⟩,
    ⟨"RST", 0x400, 0x400⟩]

/-- A word selects a row when `(w & mask) == match` (R62). -/
def OpcodeRow.selects (r : OpcodeRow) (w : CmdWord) : Bool := w &&& r.mask == r.matchBits

/-- Why a number is no command word. -/
inductive DecodeError where
  /-- The number has a bit above bit 10: the word is 11 bits wide (R60). Raised by `decodeNumber`; safe (log entry 9). -/
  | notElevenBits (w : Nat)
  deriving DecidableEq, Repr

/-- The command whose word is the number `w`, bit 0 its least significant bit (R10); a number above 0x7FF is refused
by name (log entry 9). -/
def decodeNumber (w : Nat) : Except DecodeError Instr :=
  if w < 2 ^ 11 then .ok (decode (BitVec.ofNat 11 w)) else .error (.notElevenBits w)

/-- The command the decoder reads from a word whose bits are `w`, numbered as the opcode table numbers them. The word
is one 11-bit word whatever the row's length in whole bytes, so `nbits` selects nothing (R65; log entry 9). -/
def decodeTableWord (_nbits w : Nat) : Option Instr :=
  match decodeNumber w with
  | .ok i => some i
  | .error _ => none

/-- The word with the fields `RST`, `RD`, `WR`, `D` (R60: `{RST, RD, WR, D}`). -/
def packWord (rst rd wr : Bool) (d : Byte) : CmdWord :=
  ((BitVec.ofBool rst ++ BitVec.ofBool rd ++ BitVec.ofBool wr ++ d).cast (by decide) : BitVec 11)

/-- The canonical word of a command: ignored bits 0 (R64), `ENQ d` = `0x100 | d`, `ENQDEQ d` = `0x300 | d` (R68). -/
def encode : Instr → CmdWord
  | .nop => 0x000
  | .enq d => 0x100 ||| d.setWidth 11
  | .deq => 0x200
  | .enqdeq d => 0x300 ||| d.setWidth 11
  | .rst => 0x400

/-- The input ports' values as the word of the cycle (R60: the word "is the value of the four input ports"). -/
def Input.word (i : Input) : CmdWord := packWord i.rst i.rdEn i.wrEn i.wrData

/-- The input ports' values in a cycle whose word is `w` (R60). -/
def Input.ofWord (w : CmdWord) : Input :=
  { rst := rstBit w, wrEn := wrBit w, wrData := dataField w, rdEn := rdBit w }

/-- The merge of the three drivers: the reset logic drives `RST`, the producer `WR` and `D`, the consumer `RD`
(R67). An idle producer's `D` is 0, the canonical spelling (R64). -/
def mergeHalves (rst : Bool) (wh : WriteHalf) (rh : ReadHalf) : Input :=
  { rst := rst
    wrEn := match wh with
      | .idle => false
      | .enqueue _ => true
    wrData := match wh with
      | .idle => 0
      | .enqueue d => d
    rdEn := match rh with
      | .idle => false
      | .dequeue => true }

end Sys2Proof
end

