-- ==== Sys2Proof/Machine/State.lean ====
section
/-! DEFINITION. The state of one instance of the block as plain data (10_state.md), its reset state, and the reasons a
step can stop. -/

namespace Sys2Proof.Machine

/-- The block's registers for address width `aw` (R20 to R23, R27). `mem` lists the non-zero cells by index, strictly
rising; an unlisted cell reads 0x00 (R20, R33; log entry 10). -/
structure Regs (aw : Nat) where
  mem : List Host.Cell
  wrPtr : BitVec aw
  rdPtr : BitVec aw
  count : BitVec (aw + 1)
  deriving DecidableEq, Repr

/-- The block: the four registers, or the distinct value `Unreset` before the first reset (R32, R182). -/
inductive Block (aw : Nat) where
  | unreset
  | live (regs : Regs aw)
  deriving DecidableEq, Repr

/-- The output ports of one cycle (R31, R32). -/
structure Output (aw : Nat) where
  wrAck : Bool
  rdAck : Bool
  rdData : Byte
  countO : BitVec (aw + 1)
  full : Bool
  empty : Bool
  deriving DecidableEq, Repr

/-- The machine between two cycles: the build parameter (no step changes it), the block, what the output ports showed
in the cycle just completed (R12's `Output`; log entry 6), the command words the drivers will present, first the coming
cycle's (log entry 7), and how many free command words and how many free output values have been drawn (log entry 5). -/
structure State where
  cfg : Config
  block : Block cfg.aw
  out : Output cfg.aw
  inputs : List CmdWord
  wordDraws : Nat
  outputDraws : Nat
  deriving DecidableEq, Repr

/-- Why a step stops with a fault. -/
inductive Fault where
  /-- A command other than RST in state `Unreset`, "used before reset" (D7, U5, R182). Raised by the meanings of NOP,
  ENQ, DEQ and ENQDEQ. Safe: the hardware does something there, and no claim can rest on it (log entry 3). -/
  | usedBeforeReset
  deriving DecidableEq, Repr

/-- Why a step is refused. -/
inductive Refusal where
  /-- An instruction without a meaning yet. Raised by `exec`'s arms only; safe. No arm raises it now. -/
  | notModelled (mnemonic : String)
  deriving DecidableEq, Repr

/-- The registers after a cycle with `rst = 1`: every cell 0x00, both indices 0, count 0 (R33, R80). -/
def Regs.reset (aw : Nat) : Regs aw := { mem := [], wrPtr := 0, rdPtr := 0, count := 0 }

/-- The output ports as R33 and R80 give them for reset: no ack, `rd_data` 0x00, `count_o` 0, `full` 0, `empty` 1
(log entry 6). -/
def Output.reset (aw : Nat) : Output aw :=
  { wrAck := false, rdAck := false, rdData := 0, countO := 0, full := false, empty := true }

/-- The machine right after reset, for any build (R33, R183). -/
def State.resetFor (cfg : Config) : State :=
  { cfg := cfg, block := .live (Regs.reset cfg.aw), out := Output.reset cfg.aw, inputs := [], wordDraws := 0,
    outputDraws := 0 }

/-- The machine right after reset, in the reference configuration C = 256 (R33; log entry 1). -/
def State.reset : State := State.resetFor Config.reference

end Sys2Proof.Machine
end

