-- ==== Sys2Proof/Machine/Operands.lean ====
section
/-! DEFINITION. The operand forms. The only operand is the byte `D` of the word, used as is (30_encoding.md R61); the
read port takes none and always addresses the head. -/

namespace Sys2Proof.Machine

/-- The byte the write port stores: `D` as it stands in the word, neither extended, scaled, shifted nor masked (R61,
R9). -/
def writeOperand (d : Byte) : Byte := d

/-- The index of the cell an accepted write fills (R21, R40). -/
def tailIndex {aw : Nat} (r : Regs aw) : Nat := r.wrPtr.toNat

/-- The index of the cell an accepted read empties (R22, R40, R61). -/
def headIndex {aw : Nat} (r : Regs aw) : Nat := r.rdPtr.toNat

end Sys2Proof.Machine
end

