-- ==== Sys2Proof/Machine/Ops.lean ====
section
/-! DEFINITION. The named operations over storage, indices, count and the command stream (20_memory.md R41, R46;
43_simultaneous.md R143, R144). The block takes no exception and returns from none (60_exceptions.md R160), so there
is no such operation here. -/

namespace Sys2Proof.Machine

/-- The byte at index `a`: the listed one, else 0x00, the reset contents (R20, R33). -/
def readCell : List Host.Cell → Nat → Byte
  | [], _ => 0#8
  | (b, v) :: m, a => if b = a then v else readCell m a

/-- `MemWrite(a, 1, v)` (R11). A 0x00 is not listed, so equal storages are equal lists. -/
def writeCell : List Host.Cell → Nat → Byte → List Host.Cell
  | [], a, v => if v = 0#8 then [] else [(a, v)]
  | (b, w) :: m, a, v =>
    if a < b then (if v = 0#8 then (b, w) :: m else (a, v) :: (b, w) :: m)
    else if a = b then (if v = 0#8 then m else (a, v) :: m)
    else (b, w) :: writeCell m a v

/-- Every listed index is at least `lo` and below `hi`, indices rise strictly, and no listed byte is 0x00. -/
def wfCellsFrom (lo hi : Nat) : List Host.Cell → Bool
  | [] => true
  | (a, v) :: m => decide (lo ≤ a) && decide (a < hi) && v != 0#8 && wfCellsFrom (a + 1) hi m

/-- The canonical form of the storage of a block of capacity `c`. -/
def Memory.wf (c : Nat) (m : List Host.Cell) : Bool := wfCellsFrom 0 c m

/-- `next(p) = (p + 1) & (C - 1)` (R41). -/
def nextIndex (aw : Nat) (p : BitVec aw) : BitVec aw := BitVec.ofNat aw ((p.toNat + 1) &&& (2 ^ aw - 1))

/-- `count + (wa ? 1 : 0) - (ra ? 1 : 0)`, computed exactly and kept in AW+1 bits (R143, R146). A value that does not
fit, which no state with 0 <= count <= C gives, loses its carry (log entry 19). -/
def nextCount (aw : Nat) (n : BitVec (aw + 1)) (wa ra : Bool) : BitVec (aw + 1) :=
  BitVec.ofNat (aw + 1) (n.toNat + (if wa then 1 else 0) - (if ra then 1 else 0))

/-- The head byte, `mem[rd_ptr]` (R120, R121). -/
def headByte {aw : Nat} (r : Regs aw) : Byte := readCell r.mem (headIndex r)

/-- The register writes of one cycle without reset: the write port's when `wa`, the read port's when `ra`, and one
combined count update, every right-hand side reading the pre-edge registers (R11, R140, R143, R144). -/
def portEdge {aw : Nat} (wa ra : Bool) (d : Byte) (r : Regs aw) : Regs aw :=
  { mem := if wa then writeCell r.mem (tailIndex r) d else r.mem
    wrPtr := if wa then nextIndex aw r.wrPtr else r.wrPtr
    rdPtr := if ra then nextIndex aw r.rdPtr else r.rdPtr
    count := nextCount aw r.count wa ra }

/-- The closing edge of a cycle: the block's registers become `r`, and `o` is what the output ports showed. -/
@[reducible] def State.latch (s : State) (r : Regs s.cfg.aw) (o : Output s.cfg.aw) : State :=
  { s with block := .live r, out := o }

/-- Run `f` on the block's registers; before the first reset the command faults (D7, U5; log entry 3). -/
def withRegs (s : State) (f : Regs s.cfg.aw → State) : Host.Outcome State Fault Refusal :=
  match s.block with
  | .unreset => .fault .usedBeforeReset
  | .live r => .next (f r)

/-- The command word of the coming cycle: the drivers' next scheduled word, else a free one (R12, R60, R67; log
entry 7). -/
def fetchWord (s : State) : CmdWord :=
  match s.inputs with
  | w :: _ => w
  | [] => Config.freeWord s.wordDraws

/-- The machine with that word taken from the drivers. -/
def consumeWord (s : State) : State :=
  match s.inputs with
  | _ :: rest => { s with inputs := rest }
  | [] => { s with wordDraws := s.wordDraws + 1 }

/-- The machine with `w` on the input ports in the coming cycle; later cycles' words stay as they are. -/
def presentWord (s : State) (w : CmdWord) : State := { s with inputs := w :: s.inputs.tail }

/-- The machine at power-on, before the first reset (R182). The output ports hold draws, with no operation acked
(log entry 15). -/
def State.powerOn (cfg : Config) : State :=
  { cfg := cfg
    block := .unreset
    out :=
      { wrAck := false, rdAck := false, rdData := 0, countO := Config.freeCount cfg.aw 0
        full := Config.freeFull 0, empty := Config.freeEmpty 0 }
    inputs := []
    wordDraws := 0
    outputDraws := 1 }

/-- The clock stopped or power was lost: any value, and a new RST is required before use (R170, U9; log entry 12). -/
def State.powerLoss (s : State) : State := { s with block := .unreset }

end Sys2Proof.Machine
end

