-- ==== Sys2Proof/Machine/Flags.lean ====
section
/-! DEFINITION. The conditions computed from `count` (10_state.md R28, R29; 40_control.md R83), the acceptance of each
port's request, the outputs of a cycle (43_simultaneous.md R144), and the per-cycle status codes (60_exceptions.md
R161). -/

namespace Sys2Proof.Machine

/-- `full := (count == C)` (R28). -/
def isFull {aw : Nat} (r : Regs aw) : Bool := decide (r.count.toNat = 2 ^ aw)

/-- `empty := (count == 0)` (R28). -/
def isEmpty {aw : Nat} (r : Regs aw) : Bool := decide (r.count.toNat = 0)

/-- `LENGTH`: the observation of `count_o`, `full` and `empty`, available in every cycle (R83). -/
structure Occupancy (aw : Nat) where
  countO : BitVec (aw + 1)
  full : Bool
  empty : Bool
  deriving DecidableEq, Repr

/-- What `LENGTH` observes of live registers (R83). -/
def occupancyOf {aw : Nat} (r : Regs aw) : Occupancy aw :=
  { countO := r.count, full := isFull r, empty := isEmpty r }

/-- `LENGTH` in the coming cycle: the latched count, or draws in state `Unreset` (R83, R84, R182). -/
def lengthOf (s : State) : Occupancy s.cfg.aw :=
  match s.block with
  | .unreset =>
    { countO := Config.freeCount s.cfg.aw s.outputDraws, full := Config.freeFull s.outputDraws
      empty := Config.freeEmpty s.outputDraws }
  | .live r => occupancyOf r

/-- `wa`: a write requested in a cycle without reset is accepted unless the FIFO is full (R100, R102, R145). -/
def writeAccepted {aw : Nat} (r : Regs aw) : Bool := !isFull r

/-- `ra`: a read requested in a cycle without reset is accepted unless the FIFO is empty (R120, R122, R145). -/
def readAccepted {aw : Nat} (r : Regs aw) : Bool := !isEmpty r

/-- The outputs of a cycle whose write is acked when `wa` and whose read when `ra`: `rd_data` is the head byte when
the read is acked, else 0x00, and the occupancy is the pre-edge one (R144). -/
def outputsOf {aw : Nat} (wa ra : Bool) (r : Regs aw) : Output aw :=
  { wrAck := wa
    rdAck := ra
    rdData := if ra then headByte r else 0
    countO := r.count
    full := isFull r
    empty := isEmpty r }

/-- The write port's status of one cycle (R161). -/
inductive WriteStatus where
  /-- `WR_IDLE` -/
  | idle
  /-- `WR_OK`: the byte is stored. -/
  | ok
  /-- `WR_FULL`, the source's BufferFull: the byte is dropped. -/
  | full
  deriving DecidableEq, Repr

/-- The read port's status of one cycle (R161). -/
inductive ReadStatus where
  /-- `RD_IDLE` -/
  | idle
  /-- `RD_OK`: `rd_data` holds the byte. -/
  | ok
  /-- `RD_EMPTY`, the source's BufferEmpty: nothing removed. -/
  | empty
  deriving DecidableEq, Repr

/-- The write port's status, derived from the cycle's inputs and outputs and never stored (R161). -/
def writeStatusOf {aw : Nat} (i : Input) (o : Output aw) : WriteStatus :=
  if i.wrEn && !i.rst then (if o.wrAck then .ok else .full) else .idle

/-- The read port's status, derived from the cycle's inputs and outputs and never stored (R161). -/
def readStatusOf {aw : Nat} (i : Input) (o : Output aw) : ReadStatus :=
  if i.rdEn && !i.rst then (if o.rdAck then .ok else .empty) else .idle

end Sys2Proof.Machine
end

