-- ==== Sys2Proof/Machine/Control.lean ====
section
/-! DEFINITION. RST and NOP (40_control.md R80 to R82). LENGTH (R83) is an observation, `lengthOf` in Flags.lean. -/

namespace Sys2Proof.Machine

/-- The outputs of a reset cycle: no ack, `rd_data` 0x00, and the occupancy still the one before the edge (R80; in
state `Unreset` draws, R182). -/
def resetOutputs (s : State) : Output s.cfg.aw :=
  { wrAck := false
    rdAck := false
    rdData := 0
    countO := (lengthOf s).countO
    full := (lengthOf s).full
    empty := (lengthOf s).empty }

/-- The free-value counter after a reset cycle: a cycle in state `Unreset` draws (R182; log entry 5). -/
def drawsAfterReset (s : State) : Nat :=
  match s.block with
  | .unreset => s.outputDraws + 1
  | .live _ => s.outputDraws

/-- `RST`: every cell 0x00, both indices 0, count 0, from any state, `Unreset` included (R80, R81, R182). -/
def execRst (s : State) : Host.Outcome State Fault Refusal :=
  .next { s.latch (Regs.reset s.cfg.aw) (resetOutputs s) with outputDraws := drawsAfterReset s }

/-- `NOP`: no register is written (R82). -/
def execNop (s : State) : Host.Outcome State Fault Refusal :=
  withRegs s fun r => s.latch r (outputsOf false false r)

end Sys2Proof.Machine
end

