-- ==== Sys2Proof/Machine/Dequeue.lean ====
section
/-! DEFINITION. DEQ (42_dequeue.md R120 to R123). -/

namespace Sys2Proof.Machine

/-- `DEQ`: the head byte is returned in this cycle and removed if the FIFO is not empty; else nothing (R120, R122).
The write port is idle, so the byte handed to `portEdge` is not stored. -/
def execDeq (s : State) : Host.Outcome State Fault Refusal :=
  withRegs s fun r =>
    if readAccepted r then s.latch (portEdge false true 0 r) (outputsOf false true r)
    else s.latch r (outputsOf false false r)

end Sys2Proof.Machine
end

