-- ==== Sys2Proof/Machine/Enqueue.lean ====
section
/-! DEFINITION. ENQ (41_enqueue.md R100 to R103). -/

namespace Sys2Proof.Machine

/-- `ENQ d`: the byte is stored at the tail if the FIFO is not full, and dropped if it is (R100, R102). -/
def execEnq (d : Byte) (s : State) : Host.Outcome State Fault Refusal :=
  withRegs s fun r =>
    if writeAccepted r then s.latch (portEdge true false (writeOperand d) r) (outputsOf true false r)
    else s.latch r (outputsOf false false r)

end Sys2Proof.Machine
end

