-- ==== Sys2Proof/Machine/Simultaneous.lean ====
section
/-! DEFINITION. ENQDEQ (43_simultaneous.md R140 to R143). -/

namespace Sys2Proof.Machine

/-- `ENQDEQ d`: each port is judged on the pre-edge count, independently of the other, and both take effect at one
edge (R140, R143). -/
def execEnqdeq (d : Byte) (s : State) : Host.Outcome State Fault Refusal :=
  withRegs s fun r =>
    s.latch (portEdge (writeAccepted r) (readAccepted r) (writeOperand d) r)
      (outputsOf (writeAccepted r) (readAccepted r) r)

end Sys2Proof.Machine
end

