-- ==== Sys2Proof/Machine/Dispatch.lean ====
section
/-! DEFINITION. One arm per command. -/

namespace Sys2Proof.Machine

def exec (i : Instr) (s : State) : Host.Outcome State Fault Refusal :=
  match i with
  | .nop => Sys2Proof.Machine.execNop s
  | .enq d => Sys2Proof.Machine.execEnq d s
  | .deq => Sys2Proof.Machine.execDeq s
  | .enqdeq d => Sys2Proof.Machine.execEnqdeq d s
  | .rst => Sys2Proof.Machine.execRst s

end Sys2Proof.Machine
end

