-- ==== Sys2Proof/Machine/Step.lean ====
section
/-! DEFINITION. One step is one clock cycle: the word on the input ports is taken, decoded and run (00_scope.md R12,
10_state.md R30). -/

namespace Sys2Proof.Machine

/-- One cycle (R12, R30, R60). -/
def step (s : State) : Host.Outcome State Fault Refusal :=
  exec (decode (fetchWord s)) (consumeWord s)

/-- `s` with the word whose bits are `w` on the input ports in the coming cycle. The ports carry bits 10 down to 0 and
the word has one length, so `nbits` selects nothing (R60, R65; log entries 7 and 9). -/
def State.withFetchWord (s : State) (_nbits w : Nat) : State :=
  presentWord s (BitVec.ofNat 11 w)

end Sys2Proof.Machine
end

