-- ==== Sys2Proof/Machine/Assembler.lean ====
section
/-! DEFINITION. The assembler of 30_encoding.md R68: one command a line, `;` comments, mnemonics in either case,
immediates in hex, decimal or as a character in single quotes, canonical words. Text is a list of characters; what R68
does not say of the text is log entry 13's. -/

namespace Sys2Proof.Machine

/-- Why a line is refused. -/
inductive AsmError where
  /-- The first word is none of the five mnemonics. Raised by `parseCommand`; safe. -/
  | unknownMnemonic
  /-- ENQ or ENQDEQ without a readable immediate, or another command with one. Raised by `parseCommand`; safe. -/
  | badOperand
  /-- The immediate lies outside 0 .. 255 (R68). Raised by `assembleCommand`; safe. -/
  | notAByte (imm : Nat)
  deriving DecidableEq, Repr

/-- The single quote. -/
def quoteChar : Char := Char.ofNat 0x27

/-- The start of a comment. -/
def commentChar : Char := Char.ofNat 0x3B

/-- A space or a tab between the parts of a line (log entry 13). -/
def isBlankChar (c : Char) : Bool := c == Char.ofNat 0x20 || c == Char.ofNat 0x09

/-- The line without its comment; a quoted character is kept whole (R68; log entry 13). -/
def stripComment : List Char → List Char
  | [] => []
  | q :: c :: e :: rest =>
    if q == quoteChar && e == quoteChar then q :: c :: e :: stripComment rest
    else if q == commentChar then []
    else q :: stripComment (c :: e :: rest)
  | c :: rest => if c == commentChar then [] else c :: stripComment rest

/-- The text without leading and trailing blanks. -/
def trimBlanks (t : List Char) : List Char :=
  ((t.dropWhile isBlankChar).reverse.dropWhile isBlankChar).reverse

/-- The value of a decimal or hexadecimal digit, in either case. -/
def digitValue (c : Char) : Option Nat :=
  if 0x30 ≤ c.toNat ∧ c.toNat ≤ 0x39 then some (c.toNat - 0x30)
  else if 0x41 ≤ c.toNat ∧ c.toNat ≤ 0x46 then some (c.toNat - 0x41 + 10)
  else if 0x61 ≤ c.toNat ∧ c.toNat ≤ 0x66 then some (c.toNat - 0x61 + 10)
  else none

/-- The number the digits write in the given base, after those read already. -/
def numberFrom (base acc : Nat) : List Char → Option Nat
  | [] => some acc
  | c :: rest =>
    match digitValue c with
    | some v => if v < base then numberFrom base (acc * base + v) rest else none
    | none => none

/-- At least one digit of the given base. -/
def parseNumber (base : Nat) : List Char → Option Nat
  | [] => none
  | c :: rest => numberFrom base 0 (c :: rest)

/-- The ASCII code of the character in single quotes (R68; log entry 13). -/
def parseQuoted : List Char → Option Nat
  | [q, c, e] => if q == quoteChar && e == quoteChar && decide (c.toNat < 0x80) then some c.toNat else none
  | _ => none

/-- An immediate: a character in single quotes, `0x` and hexadecimal digits, or decimal digits (R68). -/
def parseImmediate (t : List Char) : Option Nat :=
  match parseQuoted t with
  | some v => some v
  | none =>
    match t with
    | '0' :: 'x' :: digits => parseNumber 16 digits
    | digits => parseNumber 10 digits

/-- A letter in upper case (mnemonics are case-insensitive, R68). -/
def upperChar (c : Char) : Char := if 0x61 ≤ c.toNat ∧ c.toNat ≤ 0x7A then Char.ofNat (c.toNat - 0x20) else c

/-- The command a mnemonic and the text after it write. -/
def parseCommand (mnemonic operand : List Char) : Except AsmError AsmCommand :=
  if mnemonic = ['N', 'O', 'P'] then (if operand = [] then .ok .nop else .error .badOperand)
  else if mnemonic = ['E', 'N', 'Q'] then
    match parseImmediate operand with
    | some v => .ok (.enq v)
    | none => .error .badOperand
  else if mnemonic = ['D', 'E', 'Q'] then (if operand = [] then .ok .deq else .error .badOperand)
  else if mnemonic = ['E', 'N', 'Q', 'D', 'E', 'Q'] then
    match parseImmediate operand with
    | some v => .ok (.enqdeq v)
    | none => .error .badOperand
  else if mnemonic = ['R', 'S', 'T'] then (if operand = [] then .ok .rst else .error .badOperand)
  else .error .unknownMnemonic

/-- The command of well-formed text; an immediate outside 0 .. 255 is refused (R68). -/
def assembleCommand : AsmCommand → Except AsmError Instr
  | .nop => .ok .nop
  | .enq imm => if immOk imm then .ok (.enq (BitVec.ofNat 8 imm)) else .error (.notAByte imm)
  | .deq => .ok .deq
  | .enqdeq imm => if immOk imm then .ok (.enqdeq (BitVec.ofNat 8 imm)) else .error (.notAByte imm)
  | .rst => .ok .rst

/-- The command of one line, or none for a line that holds no command (R68; log entry 13). -/
def parseLine (line : List Char) : Except AsmError (Option Instr) :=
  let text := trimBlanks (stripComment line)
  if text = [] then .ok none
  else
    let mnemonic := (text.takeWhile fun c => !isBlankChar c).map upperChar
    let operand := trimBlanks (text.dropWhile fun c => !isBlankChar c)
    match parseCommand mnemonic operand with
    | .error e => .error e
    | .ok c =>
      match assembleCommand c with
      | .error e => .error e
      | .ok i => .ok (some i)

/-- The words of a program, one line per cycle in cycle order, each the canonical word (R68). -/
def assemble : List (List Char) → Except AsmError (List CmdWord)
  | [] => .ok []
  | line :: rest =>
    match parseLine line, assemble rest with
    | .error e, _ => .error e
    | _, .error e => .error e
    | .ok none, .ok ws => .ok ws
    | .ok (some i), .ok ws => .ok (encode i :: ws)

/-- The hexadecimal digit of a value below 16. -/
def hexDigit (v : Nat) : Char := if v < 10 then Char.ofNat (0x30 + v) else Char.ofNat (0x37 + v)

/-- A byte in hex, as the spec's vectors write it: `0x` and two digits. -/
def hexByte (d : Byte) : List Char := ['0', 'x', hexDigit (d.toNat / 16), hexDigit (d.toNat % 16)]

/-- The canonical text of a command (R68). -/
def renderInstr : Instr → List Char
  | .nop => ['N', 'O', 'P']
  | .enq d => ['E', 'N', 'Q', ' '] ++ hexByte d
  | .deq => ['D', 'E', 'Q']
  | .enqdeq d => ['E', 'N', 'Q', 'D', 'E', 'Q', ' '] ++ hexByte d
  | .rst => ['R', 'S', 'T']

end Sys2Proof.Machine
end

