-- ==== Sys2Proof/Machine/Contents.lean ====
section
/-! DEFINITION. The abstract contents of a block (43_simultaneous.md R147) and the source's sequential byte queue of
capacity C (R150), on which each call is one operation. -/

namespace Sys2Proof.Machine

/-- `[ mem[(rd_ptr + j) mod C] for j = 0 .. count - 1 ]`, oldest first (R147). -/
def contentsOf {aw : Nat} (r : Regs aw) : List Byte :=
  (List.range r.count.toNat).map fun j => readCell r.mem ((r.rdPtr.toNat + j) % 2 ^ aw)

/-- One byte offered to a sequential queue of capacity `c`: whether it is inserted, and the queue after (R102, R150). -/
def queueEnqueue (c : Nat) (d : Byte) (q : List Byte) : Bool × List Byte :=
  if q.length < c then (true, q ++ [d]) else (false, q)

/-- One byte asked of a sequential queue: the byte removed, if any, and the queue after (R122, R150). -/
def queueDequeue : List Byte → Option Byte × List Byte
  | [] => (none, [])
  | b :: q => (some b, q)

/-- The producer's call of a cycle, if it makes one, on a sequential queue of capacity `c` (R150). -/
def serialEnqueue (c : Nat) (i : Input) (q : List Byte) : Bool × List Byte :=
  if i.wrEn then queueEnqueue c i.wrData q else (false, q)

/-- The consumer's call of a cycle, if it makes one, on a sequential queue (R150). -/
def serialDequeue (i : Input) (q : List Byte) : Option Byte × List Byte :=
  if i.rdEn then queueDequeue q else (none, q)

end Sys2Proof.Machine
end

