-- ==== Sys2Proof/Machine/Cycle.lean ====
section
/-! DEFINITION. The whole block in one cycle, as 43_simultaneous.md R144 writes it: "the single definition from which
every command rule above is a case". The meanings of the five commands are written from their own rules; that they are
its cases is a statement. -/

namespace Sys2Proof.Machine

/-- `step(s, i) -> (s', o)` on live registers (R144). -/
def blockCycle {aw : Nat} (i : Input) (r : Regs aw) : Regs aw × Output aw :=
  let occ : Output aw :=
    { wrAck := false, rdAck := false, rdData := 0, countO := r.count, full := isFull r, empty := isEmpty r }
  if i.rst then (Regs.reset aw, occ)
  else
    let wa := i.wrEn && decide (r.count.toNat ≠ 2 ^ aw)
    let ra := i.rdEn && decide (r.count.toNat ≠ 0)
    ({ mem := if wa then writeCell r.mem r.wrPtr.toNat i.wrData else r.mem
       wrPtr := if wa then nextIndex aw r.wrPtr else r.wrPtr
       rdPtr := if ra then nextIndex aw r.rdPtr else r.rdPtr
       count := nextCount aw r.count wa ra },
     { occ with wrAck := wa, rdAck := ra, rdData := if ra then readCell r.mem r.rdPtr.toNat else 0 })

end Sys2Proof.Machine
end

