-- ==== Sys2Proof/Machine/Pair.lean ====
section
/-! DEFINITION. The source's buffer pair: two instances, one for transmit and one for receive, with no state shared
(00_scope.md R6, 10_state.md R35, 90_conflicts.md C1, 92_eei_decisions.md D12). -/

namespace Sys2Proof.Machine

/-- A transmit and a receive instance (R35). -/
structure BufferPair where
  tx : State
  rx : State
  deriving DecidableEq, Repr

/-- One cycle of the transmit instance. -/
def stepTx (p : BufferPair) : Host.Outcome BufferPair Fault Refusal :=
  match step p.tx with
  | .next s => .next { p with tx := s }
  | .fault r => .fault r
  | .refused r => .refused r

/-- One cycle of the receive instance. -/
def stepRx (p : BufferPair) : Host.Outcome BufferPair Fault Refusal :=
  match step p.rx with
  | .next s => .next { p with rx := s }
  | .fault r => .fault r
  | .refused r => .refused r

/-- Both instances right after reset, each with a capacity of its own. -/
def BufferPair.resetFor (tx rx : Config) : BufferPair := ⟨State.resetFor tx, State.resetFor rx⟩

end Sys2Proof.Machine
end

