-- ==== Sys2Proof/Machine/Transactions.lean ====
section
/-! DEFINITION. The host transactions of the two agents (30_encoding.md R69, R70; 41_enqueue.md R104; 42_dequeue.md
R124): runs of cycles in which one agent drives its half as the transaction says, and the other agent and the reset
logic drive what they like. They are no commands of the block (log entry 11). -/

namespace Sys2Proof.Machine

/-- What the reset logic and the consumer drive in one cycle, for a transaction of the producer (R67). -/
structure ConsumerSide where
  rst : Bool
  read : ReadHalf
  deriving DecidableEq, Repr

/-- What the reset logic and the producer drive in one cycle, for a transaction of the consumer (R67). -/
structure ProducerSide where
  rst : Bool
  write : WriteHalf
  deriving DecidableEq, Repr

/-- A finished transaction: its result, how many cycles it took, and the machine after them. -/
structure Finished (α : Type) where
  result : α
  cycles : Nat
  state : State
  deriving Repr

/-- One cycle with the given input port values: their word is decoded and run (R32, R60). -/
def driveCycle (i : Input) (s : State) : Host.Outcome State Fault Refusal :=
  exec (decode i.word) s

/-- Go on after a cycle that answers a next state; a fault or a refusal ends the transaction too. -/
def andThen {α : Type} (o : Host.Outcome State Fault Refusal) (f : State → Host.Outcome α Fault Refusal) :
    Host.Outcome α Fault Refusal :=
  match o with
  | .next s => f s
  | .fault r => .fault r
  | .refused r => .refused r

/-- `ENQN b0, ..., b(n-1)` from cycle `t` on, with `k` bytes acked and `c` cycles passed before: the write half
`enqueue b` in successive cycles, up to the first that is not acked; the result is how many were (R69, R104). -/
def enqnFrom (other : Nat → ConsumerSide) (t k c : Nat) :
    List Byte → State → Host.Outcome (Finished Nat) Fault Refusal
  | [], s => .next ⟨k, c, s⟩
  | b :: bs, s =>
    andThen (driveCycle (mergeHalves (other t).rst (.enqueue b) (other t).read) s) fun s' =>
      if s'.out.wrAck then enqnFrom other (t + 1) (k + 1) (c + 1) bs s' else .next ⟨k, c + 1, s'⟩

/-- `ENQN`, the source's `enqueue(data, n)` (R104). -/
def enqn (other : Nat → ConsumerSide) (bs : List Byte) (s : State) : Host.Outcome (Finished Nat) Fault Refusal :=
  enqnFrom other 0 0 0 bs s

/-- `DEQN n` from cycle `t` on, with `dest` returned and `c` cycles passed before: the read half `dequeue` in
successive cycles, up to the first that is not acked; the result is the bytes returned, oldest first, and their number
is the source's return value (R69, R124). -/
def deqnFrom (other : Nat → ProducerSide) (t : Nat) (dest : List Byte) (c : Nat) :
    Nat → State → Host.Outcome (Finished (List Byte)) Fault Refusal
  | 0, s => .next ⟨dest, c, s⟩
  | n + 1, s =>
    andThen (driveCycle (mergeHalves (other t).rst (other t).write .dequeue) s) fun s' =>
      if s'.out.rdAck then deqnFrom other (t + 1) (dest ++ [s'.out.rdData]) (c + 1) n s'
      else .next ⟨dest, c + 1, s'⟩

/-- `DEQN n`, the source's `dequeue(dest, n)` (R124). -/
def deqn (other : Nat → ProducerSide) (n : Nat) (s : State) : Host.Outcome (Finished (List Byte)) Fault Refusal :=
  deqnFrom other 0 [] 0 n s

/-- `IDLE k` of the producer from cycle `t` on: `k` cycles with the write half idle (R69). -/
def idleWriteFrom (other : Nat → ConsumerSide) (t : Nat) : Nat → State → Host.Outcome State Fault Refusal
  | 0, s => .next s
  | k + 1, s =>
    andThen (driveCycle (mergeHalves (other t).rst .idle (other t).read) s) fun s' => idleWriteFrom other (t + 1) k s'

/-- `IDLE k` of the consumer from cycle `t` on: `k` cycles with the read half idle (R69). -/
def idleReadFrom (other : Nat → ProducerSide) (t : Nat) : Nat → State → Host.Outcome State Fault Refusal
  | 0, s => .next s
  | k + 1, s =>
    andThen (driveCycle (mergeHalves (other t).rst (other t).write .idle) s) fun s' => idleReadFrom other (t + 1) k s'

/-- `PUTB b` from cycle `t` on, watched for at most `fuel` cycles: the write half `enqueue b` in every cycle until the
first that is acked. `none`: still blocked after them (R70, R188; log entry 11). -/
def putbFrom (other : Nat → ConsumerSide) (b : Byte) (t c : Nat) :
    Nat → State → Host.Outcome (Option (Finished Unit)) Fault Refusal
  | 0, _ => .next none
  | fuel + 1, s =>
    andThen (driveCycle (mergeHalves (other t).rst (.enqueue b) (other t).read) s) fun s' =>
      if s'.out.wrAck then .next (some ⟨(), c + 1, s'⟩) else putbFrom other b (t + 1) (c + 1) fuel s'

/-- `PUTB b` (R70). -/
def putb (other : Nat → ConsumerSide) (b : Byte) (fuel : Nat) (s : State) :
    Host.Outcome (Option (Finished Unit)) Fault Refusal :=
  putbFrom other b 0 0 fuel s

/-- The source's `write(bytes)` against the block: `PUTB b` for each byte in order, each watched for at most `fuel`
cycles; `none`: blocked (R70). -/
def putBytesFrom (other : Nat → ConsumerSide) (fuel t : Nat) :
    List Byte → State → Host.Outcome (Option (Finished Unit)) Fault Refusal
  | [], s => .next (some ⟨(), t, s⟩)
  | b :: bs, s =>
    match putbFrom other b t 0 fuel s with
    | .next (some done) => putBytesFrom other fuel (t + done.cycles) bs done.state
    | .next none => .next none
    | .fault r => .fault r
    | .refused r => .refused r

/-- `GETB` from cycle `t` on, watched for at most `fuel` cycles: the read half `dequeue` in every cycle until the first
that is acked; the result is that cycle's `rd_data`. `none`: still blocked (R70, R188; log entry 11). -/
def getbFrom (other : Nat → ProducerSide) (t c : Nat) :
    Nat → State → Host.Outcome (Option (Finished Byte)) Fault Refusal
  | 0, _ => .next none
  | fuel + 1, s =>
    andThen (driveCycle (mergeHalves (other t).rst (other t).write .dequeue) s) fun s' =>
      if s'.out.rdAck then .next (some ⟨s'.out.rdData, c + 1, s'⟩) else getbFrom other (t + 1) (c + 1) fuel s'

/-- `GETB`, the source's `readByte()` (R70). -/
def getb (other : Nat → ProducerSide) (fuel : Nat) (s : State) :
    Host.Outcome (Option (Finished Byte)) Fault Refusal :=
  getbFrom other 0 0 fuel s

end Sys2Proof.Machine
end

