-- ==== Sys2Proof/Safety.lean ====
section
/-! DEFINITION. What the claims are about: the invariant of the block (10_state.md R23, R24; 43_simultaneous.md R148,
R149), and the history of accepted bytes since the last reset that the FIFO and occupancy laws count (R151, R152). -/

namespace Sys2Proof.Machine

/-- The block's invariant on live registers: the storage is canonical, `0 <= count <= C` (R23), and
`wr_ptr = (rd_ptr + count) mod C` (R24). -/
def Regs.Inv {aw : Nat} (r : Regs aw) : Prop :=
  Memory.wf (2 ^ aw) r.mem = true ∧ r.count.toNat ≤ 2 ^ aw ∧
    r.wrPtr.toNat = (r.rdPtr.toNat + r.count.toNat) % 2 ^ aw

/-- The invariant holds of the block's registers whenever it has any: before the first reset it says nothing (R182). -/
def State.Inv (s : State) : Prop := ∀ r : Regs s.cfg.aw, s.block = .live r → r.Inv

/-- The block has been reset at least once since power-on. -/
def State.isLive (s : State) : Bool :=
  match s.block with
  | .unreset => false
  | .live _ => true

/-- The bytes accepted since the last reset, in cycle order: W by the write port, R by the read port (R151). -/
structure History where
  written : List Byte
  returned : List Byte
  deriving DecidableEq, Repr

/-- The history after one more cycle: a reset begins it anew (R81 (b)), an acked write adds its `wr_data` to W, an
acked read its `rd_data` to R (R151). -/
def History.after {aw : Nat} (h : History) (i : Input) (o : Output aw) : History :=
  if i.rst then ⟨[], []⟩
  else
    { written := h.written ++ (if o.wrAck then [i.wrData] else [])
      returned := h.returned ++ (if o.rdAck then [o.rdData] else []) }

/-- The machine after `n` cycles and the history it leaves; none if a cycle faults or is refused. -/
def runCycles : Nat → State → History → Option (State × History)
  | 0, s, h => some (s, h)
  | n + 1, s, h =>
    match step s with
    | .next t => runCycles n t (h.after (Input.ofWord (fetchWord s)) t.out)
    | .fault _ => none
    | .refused _ => none

end Sys2Proof.Machine
end

