-- ==== Sys2Proof/Certificates/Slice0/Obligations.lean ====
section
/-! DEFINITION. The statements about the model, each citing the rule of spec/ it formalises. Every one is for every
capacity C = 2^AW (00_scope.md R15). A premise `r.Inv` is the block's invariant, which `InvariantIsKept` states of
every step; it rules out only registers no run reaches (count above C, an inconsistent index). -/

open Sys2Proof Sys2Proof.Machine

-- ---------------------------------------------------------------------------------------------------------------
-- Encoding (30_encoding.md)

/-- R71, and the words it gives, in both directions. -/
def Obligations.DecodeSampleWords : Prop :=
  decode 0x141 = .enq 0x41 ∧ decode 0x3FF = .enqdeq 0xFF ∧ decode 0x200 = .deq ∧ decode 0x400 = .rst ∧
    decode 0x000 = .nop ∧ decode 0x7FF = .rst ∧
    encode (.enq 0x41) = 0b00101000001 ∧ encode (.enqdeq 0xFF) = 0x3FF ∧ encode .deq = 0x200 ∧
    encode .rst = 0x400 ∧ encode .nop = 0x000

/-- R63: the decoder's five cases on the bits of the word, and that they are all. -/
def Obligations.DecoderFollowsTheBits : Prop :=
  ∀ w : CmdWord,
    decode w =
      if w.extractLsb' 10 1 = 1 then .rst
      else if w.extractLsb' 8 2 = 0b00 then .nop
      else if w.extractLsb' 8 2 = 0b01 then .enq (w.extractLsb' 0 8)
      else if w.extractLsb' 8 2 = 0b10 then .deq
      else .enqdeq (w.extractLsb' 0 8)

/-- R62: the five rows partition the 2048 words, and the row a word selects names the command it decodes to. -/
def Obligations.OneRowPerWord : Prop :=
  opcodeTable =
      [⟨"NOP", 0x000, 0x700⟩, ⟨"ENQ", 0x100, 0x700⟩, ⟨"DEQ", 0x200, 0x700⟩, ⟨"ENQDEQ", 0x300, 0x700⟩,
        ⟨"RST", 0x400, 0x400⟩] ∧
    ∀ w : CmdWord,
      (opcodeTable.filter fun row => w &&& row.mask == row.matchBits).map (·.mnemonic) = [(decode w).mnemonic]

/-- Decode and encode agree: every command, with every operand byte, is decoded from its canonical word (as a word and
as a numbered word of the table), and the canonical word of the command a word decodes to is that word with its
ignored bits 0 (R61, R62, R64, R68). -/
def Obligations.DecodeEncodeAgree : Prop :=
  (∀ i : Instr, i.wf = true ∧ decode (encode i) = i ∧
      ∀ nbits, decodeTableWord nbits (encode i).toNat = some i) ∧
    ∀ w : CmdWord,
      encode (decode w) =
        w &&& (match decode w with
          | .nop => 0x700
          | .enq _ => 0x7FF
          | .deq => 0x700
          | .enqdeq _ => 0x7FF
          | .rst => 0x400)

/-- R64, with the masks of R62's table: every word is one of the five commands; the canonical words of NOP, DEQ and
RST are 0x000, 0x200 and 0x400; and a word of one of these three rows, whatever its ignored bits hold, is that command
and executes from every state exactly as the canonical word. -/
def Obligations.IgnoredBitsHaveNoMeaning : Prop :=
  encode .nop = 0x000 ∧ encode .deq = 0x200 ∧ encode .rst = 0x400 ∧
    ∀ w : CmdWord,
      (w &&& 0x700 = 0x000 ∨ w &&& 0x700 = 0x100 ∨ w &&& 0x700 = 0x200 ∨ w &&& 0x700 = 0x300 ∨
        w &&& 0x400 = 0x400) ∧
      (w &&& 0x700 = 0x000 →
        decode w = .nop ∧ ∀ s : State, step (presentWord s w) = step (presentWord s 0x000)) ∧
      (w &&& 0x700 = 0x100 → decode w = .enq (w.setWidth 8)) ∧
      (w &&& 0x700 = 0x200 →
        decode w = .deq ∧ ∀ s : State, step (presentWord s w) = step (presentWord s 0x200)) ∧
      (w &&& 0x700 = 0x300 → decode w = .enqdeq (w.setWidth 8)) ∧
      (w &&& 0x400 = 0x400 →
        decode w = .rst ∧ ∀ s : State, step (presentWord s w) = step (presentWord s 0x400))

/-- R67: the merge of the three drivers' halves selects the command of the table, reset first, and neither agent drives
the other's field. -/
def Obligations.DriversMerge : Prop :=
  (∀ wh rh, decode (mergeHalves true wh rh).word = .rst) ∧
    decode (mergeHalves false .idle .idle).word = .nop ∧
    (∀ d, decode (mergeHalves false (.enqueue d) .idle).word = .enq d) ∧
    decode (mergeHalves false .idle .dequeue).word = .deq ∧
    (∀ d, decode (mergeHalves false (.enqueue d) .dequeue).word = .enqdeq d) ∧
    (∀ rst wh wh' rh, (mergeHalves rst wh rh).rdEn = (mergeHalves rst wh' rh).rdEn) ∧
    ∀ rst wh rh rh', (mergeHalves rst wh rh).wrEn = (mergeHalves rst wh rh').wrEn ∧
      (mergeHalves rst wh rh).wrData = (mergeHalves rst wh rh').wrData

/-- The assembler reads back the text of every command and emits its canonical word, and an immediate outside 0 .. 255
is refused (R68; the text's form beyond R68 is log entry 13's). -/
def Obligations.AssemblerReadsItsText : Prop :=
  (∀ i : Instr, parseLine (renderInstr i) = .ok (some i) ∧ assemble [renderInstr i] = .ok [encode i]) ∧
    (∀ d : Byte, encode (.enq d) = 0x100 ||| d.setWidth 11 ∧ encode (.enqdeq d) = 0x300 ||| d.setWidth 11) ∧
    ∀ v, 256 ≤ v → assembleCommand (.enq v) = .error (.notAByte v) ∧ assembleCommand (.enqdeq v) = .error (.notAByte v)

/-- R7, D2, U4: the block has the capacities 2^AW with AW >= 1, and any other is refused. -/
def Obligations.CapacityIsAPowerOfTwo : Prop :=
  ∀ c : Nat,
    ((∃ aw, 1 ≤ aw ∧ c = 2 ^ aw) ↔ capacityOk c = true) ∧
      (capacityOk c = true → ∃ cfg, Config.ofCapacity c = .ok cfg ∧ cfg.capacity = c) ∧
      (capacityOk c = false → ∃ e, Config.ofCapacity c = .error e)

-- ---------------------------------------------------------------------------------------------------------------
-- The step, reset and the state before it (00_scope.md R12, 10_state.md R33, 70_reset_and_hazards.md)

/-- A step takes the word on the input ports and runs the command it decodes to: the drivers' next word, or a free one
where they have none (log entry 7); taking it changes nothing but the drivers' list, or the count of free words. -/
def Obligations.StepRunsTheDecodedCommand : Prop :=
  (∀ (s : State) (w : CmdWord) (ws : List CmdWord), s.inputs = w :: ws →
      step s = exec (decode w) { s with inputs := ws }) ∧
    (∀ s : State, s.inputs = [] →
      step s = exec (decode (Config.freeWord s.wordDraws)) { s with wordDraws := s.wordDraws + 1 }) ∧
    ∀ (s : State) (nbits w : Nat) (i : Instr), decodeTableWord nbits w = some i →
      step (s.withFetchWord nbits w) = exec i { s with inputs := s.inputs.tail }

/-- R33: the values after a cycle with `rst = 1`, which are also those of the reset state of every build. -/
def Obligations.ResetValues : Prop :=
  (∀ s : State, ∃ (r : Regs s.cfg.aw) (o : Output s.cfg.aw) (n : Nat),
      exec .rst s = .next { s with block := .live r, out := o, outputDraws := n } ∧
        (∀ a, readCell r.mem a = 0) ∧ r.wrPtr = 0 ∧ r.rdPtr = 0 ∧ r.count = 0 ∧
        lengthOf { s with block := .live r, out := o, outputDraws := n } = { countO := 0, full := false, empty := true }) ∧
    ∀ cfg : Config, ∃ r, (State.resetFor cfg).block = .live r ∧
      (∀ a, readCell r.mem a = 0) ∧ r.wrPtr = 0 ∧ r.rdPtr = 0 ∧ r.count = 0 ∧
      lengthOf (State.resetFor cfg) = { countO := 0, full := false, empty := true }

/-- R80: RST from any state, its words, its outputs (the occupancy is the pre-edge one) and the state after. -/
def Obligations.RstResult : Prop :=
  (∀ w : CmdWord, w &&& 0x400 = 0x400 → decode w = .rst) ∧
    ∀ s : State, ∃ (r' : Regs s.cfg.aw) (n : Nat),
      exec .rst s = .next
        { s with
          block := .live r'
          out :=
            { wrAck := false, rdAck := false, rdData := 0x00, countO := (lengthOf s).countO
              full := (lengthOf s).full, empty := (lengthOf s).empty }
          outputDraws := n } ∧
        (∀ a, readCell r'.mem a = 0x00) ∧ r'.wrPtr = 0 ∧ r'.rdPtr = 0 ∧ r'.count = 0 ∧
        occupancyOf r' = { countO := 0, full := false, empty := true } ∧
        ∀ r : Regs s.cfg.aw, s.block = .live r →
          n = s.outputDraws ∧
            lengthOf s =
              { countO := r.count, full := decide (r.count.toNat = 2 ^ s.cfg.aw)
                empty := decide (r.count.toNat = 0) }

/-- R81: a reset cycle accepts no request and stores no byte whatever the ports carry (a), leaves no contents (b), is
idempotent on the block (c), and does the same from every state, `Unreset` included (d, e). -/
def Obligations.RstCorners : Prop :=
  ∀ (s : State) (i : Input), i.rst = true →
    ∃ (r : Regs s.cfg.aw) (o o' : Output s.cfg.aw) (n n' : Nat),
      driveCycle i s = .next { s with block := .live r, out := o, outputDraws := n } ∧
        o.wrAck = false ∧ o.rdAck = false ∧ o.rdData = 0x00 ∧
        contentsOf r = [] ∧ r = Regs.reset s.cfg.aw ∧ (∀ a, readCell r.mem a = 0x00) ∧
        driveCycle i { s with block := .live r, out := o, outputDraws := n } =
          .next { s with block := .live r, out := o', outputDraws := n' }

/-- Before the first reset RST gives the reset registers with draws on `count_o`, `full` and `empty`, and every other
command faults "used before reset" (R182, 92_eei_decisions.md D7, 93 U5). That NOP faults too is D7's and U5's "any
other command" (log entry 3). -/
def Obligations.BeforeTheFirstReset : Prop :=
  ∀ s : State, s.block = .unreset →
    (exec .rst s = .next
        { s with
          block := .live (Regs.reset s.cfg.aw)
          out :=
            { wrAck := false, rdAck := false, rdData := 0x00, countO := Config.freeCount s.cfg.aw s.outputDraws
              full := Config.freeFull s.outputDraws, empty := Config.freeEmpty s.outputDraws }
          outputDraws := s.outputDraws + 1 }) ∧
      (∀ i : Instr, i ≠ .rst → exec i s = .fault .usedBeforeReset) ∧
      ∀ t : State, step s = .next t → decode (fetchWord s) = .rst ∧ t.isLive = true

/-- R183: right after reset both ports may be used: a DEQ is rejected and an ENQ is accepted. -/
def Obligations.BothPortsUsableAfterReset : Prop :=
  ∀ (cfg : Config) (d : Byte), (lengthOf (State.resetFor cfg)).empty = true ∧
    (∃ t, exec .deq (State.resetFor cfg) = .next t ∧ t.out.rdAck = false ∧ t.out.rdData = 0) ∧
    ∃ t, exec (.enq d) (State.resetFor cfg) = .next t ∧ t.out.wrAck = true

/-- R160, R189: no command traps and any sequence of words is legal once the block has been reset. -/
def Obligations.LiveBlockNeverStops : Prop :=
  ∀ (n : Nat) (s : State), s.isLive = true → ∃ t : State, core.run n s = .next t ∧ t.isLive = true

-- ---------------------------------------------------------------------------------------------------------------
-- The commands' results and frames (40_control.md to 43_simultaneous.md)

/-- R82: NOP writes no register; any run of NOP words, of whatever length and spelling, leaves the block as it was. -/
def Obligations.NopResult : Prop :=
  (∀ w : CmdWord, w &&& 0x700 = 0x000 → decode w = .nop) ∧
    ∀ (s : State) (r : Regs s.cfg.aw), s.block = .live r →
      ∀ o : Output s.cfg.aw,
        o = { wrAck := false, rdAck := false, rdData := 0x00, countO := r.count
              full := decide (r.count.toNat = 2 ^ s.cfg.aw), empty := decide (r.count.toNat = 0) } →
        exec .nop s = .next { s with out := o } ∧
          ∀ ws rest : List CmdWord, ws ≠ [] → (∀ w ∈ ws, w &&& 0x700 = 0x000) →
            core.run ws.length { s with inputs := ws ++ rest } = .next { s with inputs := rest, out := o }

/-- R100, R102: ENQ. On a FIFO that is not full the byte is stored at the tail, `wr_ptr` and `count` advance by one,
every other cell and `rd_ptr` keep their values, the outputs are the pre-edge ones, and LENGTH in the next cycle shows
the new count. On a full FIFO, where the indices are equal, no register is written and the byte is dropped. -/
def Obligations.EnqResult : Prop :=
  (∀ w : CmdWord, w &&& 0x700 = 0x100 → decode w = .enq (w.extractLsb' 0 8)) ∧
    ∀ (s : State) (r : Regs s.cfg.aw) (d : Byte), s.block = .live r → r.Inv →
      (r.count.toNat < 2 ^ s.cfg.aw →
        ∃ r' : Regs s.cfg.aw,
          exec (.enq d) s = .next
            { s with
              block := .live r'
              out :=
                { wrAck := true, rdAck := false, rdData := 0x00, countO := r.count, full := false
                  empty := decide (r.count.toNat = 0) } } ∧
            (∀ a, readCell r'.mem a = if a = r.wrPtr.toNat then d else readCell r.mem a) ∧
            r'.wrPtr.toNat = (r.wrPtr.toNat + 1) % 2 ^ s.cfg.aw ∧ r'.rdPtr = r.rdPtr ∧
            r'.count.toNat = r.count.toNat + 1 ∧
            (occupancyOf r').countO.toNat = r.count.toNat + 1 ∧ (occupancyOf r').empty = false ∧
            (occupancyOf r').full = decide (r.count.toNat + 1 = 2 ^ s.cfg.aw)) ∧
        (r.count.toNat = 2 ^ s.cfg.aw →
          r.wrPtr = r.rdPtr ∧
            exec (.enq d) s = .next
              { s with
                out :=
                  { wrAck := false, rdAck := false, rdData := 0x00, countO := r.count, full := true
                    empty := false } })

/-- R101: an accepted write is acked, stores its byte in the tail cell and in no other, advances `wr_ptr` and `count`,
and leaves `rd_ptr`. The cell it fills holds no stored byte; so every stored byte is the same after, in place. -/
def Obligations.TailCellHoldsNoStoredByte : Prop :=
  ∀ (s : State) (r : Regs s.cfg.aw) (d : Byte), s.block = .live r → r.Inv → r.count.toNat < 2 ^ s.cfg.aw →
    (∀ j, j < r.count.toNat → r.wrPtr.toNat ≠ (r.rdPtr.toNat + j) % 2 ^ s.cfg.aw) ∧
      ∃ (r' : Regs s.cfg.aw) (o : Output s.cfg.aw),
        exec (.enq d) s = .next { s with block := .live r', out := o } ∧ o.wrAck = true ∧
          readCell r'.mem r.wrPtr.toNat = d ∧ (∀ a, a ≠ r.wrPtr.toNat → readCell r'.mem a = readCell r.mem a) ∧
          r'.wrPtr.toNat = (r.wrPtr.toNat + 1) % 2 ^ s.cfg.aw ∧ r'.count.toNat = r.count.toNat + 1 ∧
          r'.rdPtr = r.rdPtr ∧
          ∀ j, j < r.count.toNat →
            readCell r'.mem ((r.rdPtr.toNat + j) % 2 ^ s.cfg.aw) = readCell r.mem ((r.rdPtr.toNat + j) % 2 ^ s.cfg.aw)

/-- R120, R122 (and R121's frame): DEQ. On a FIFO that is not empty the head byte is on `rd_data` in this cycle,
`rd_ptr` and `count` move by one, and nothing else is written: `wr_ptr` and the storage, the cell just read included,
are the same. On an empty FIFO there is no ack, `rd_data` is 0x00 and no register is written. -/
def Obligations.DeqResult : Prop :=
  (∀ w : CmdWord, w &&& 0x700 = 0x200 → decode w = .deq) ∧
    ∀ (s : State) (r : Regs s.cfg.aw), s.block = .live r →
      (r.count.toNat ≠ 0 →
        ∃ (p : BitVec s.cfg.aw) (n : BitVec (s.cfg.aw + 1)),
          exec .deq s = .next
            { s with
              block := .live { r with rdPtr := p, count := n }
              out :=
                { wrAck := false, rdAck := true, rdData := readCell r.mem r.rdPtr.toNat, countO := r.count
                  full := decide (r.count.toNat = 2 ^ s.cfg.aw), empty := false } } ∧
            p.toNat = (r.rdPtr.toNat + 1) % 2 ^ s.cfg.aw ∧ n.toNat = r.count.toNat - 1 ∧
            (occupancyOf { r with rdPtr := p, count := n }).empty = decide (r.count.toNat = 1) ∧
            (r.Inv → (occupancyOf { r with rdPtr := p, count := n }).full = false)) ∧
        (r.count.toNat = 0 →
          exec .deq s = .next
            { s with
              out :=
                { wrAck := false, rdAck := false, rdData := 0x00, countO := r.count, full := false
                  empty := true } })

/-- R140: ENQDEQ judges each port on the pre-edge count and takes both effects at one edge. -/
def Obligations.EnqdeqResult : Prop :=
  (∀ w : CmdWord, w &&& 0x700 = 0x300 → decode w = .enqdeq (w.extractLsb' 0 8)) ∧
    ∀ (s : State) (r : Regs s.cfg.aw) (d : Byte) (wa ra : Bool), s.block = .live r → r.Inv →
      wa = decide (r.count.toNat ≠ 2 ^ s.cfg.aw) → ra = decide (r.count.toNat ≠ 0) →
      ∃ r' : Regs s.cfg.aw,
        exec (.enqdeq d) s = .next
          { s with
            block := .live r'
            out :=
              { wrAck := wa, rdAck := ra, rdData := if ra then readCell r.mem r.rdPtr.toNat else 0x00
                countO := r.count, full := !wa, empty := !ra } } ∧
          (∀ a, readCell r'.mem a = if wa = true ∧ a = r.wrPtr.toNat then d else readCell r.mem a) ∧
          r'.wrPtr.toNat = (if wa then (r.wrPtr.toNat + 1) % 2 ^ s.cfg.aw else r.wrPtr.toNat) ∧
          r'.rdPtr.toNat = (if ra then (r.rdPtr.toNat + 1) % 2 ^ s.cfg.aw else r.rdPtr.toNat) ∧
          r'.count.toNat = r.count.toNat + (if wa then 1 else 0) - (if ra then 1 else 0)

/-- R141: ENQDEQ at each occupancy, with the serial order of the source's two calls it equals on the contents. -/
def Obligations.EnqdeqAtEachOccupancy : Prop :=
  ∀ (s : State) (r : Regs s.cfg.aw) (d : Byte), s.block = .live r → r.Inv →
    ∃ (r' : Regs s.cfg.aw) (o : Output s.cfg.aw),
      exec (.enqdeq d) s = .next { s with block := .live r', out := o } ∧
        (r.count.toNat = 0 →
          o.wrAck = true ∧ o.rdAck = false ∧ o.rdData = 0x00 ∧ r'.count.toNat = 1 ∧
            queueDequeue (contentsOf r) = (none, contentsOf r) ∧
            queueEnqueue (2 ^ s.cfg.aw) d (contentsOf r) = (true, contentsOf r')) ∧
        (1 ≤ r.count.toNat → r.count.toNat ≤ 2 ^ s.cfg.aw - 1 →
          o.wrAck = true ∧ o.rdAck = true ∧ r'.count = r.count ∧
            (∃ q, queueDequeue (contentsOf r) = (some o.rdData, q) ∧
              queueEnqueue (2 ^ s.cfg.aw) d q = (true, contentsOf r')) ∧
            ∃ q, queueEnqueue (2 ^ s.cfg.aw) d (contentsOf r) = (true, q) ∧
              queueDequeue q = (some o.rdData, contentsOf r')) ∧
        (r.count.toNat = 2 ^ s.cfg.aw →
          o.wrAck = false ∧ o.rdAck = true ∧ r'.count.toNat = 2 ^ s.cfg.aw - 1 ∧
            queueEnqueue (2 ^ s.cfg.aw) d (contentsOf r) = (false, contentsOf r) ∧
            queueDequeue (contentsOf r) = (some o.rdData, contentsOf r'))

/-- R142: in a cycle with both ports accepted the cells written and read differ, and `rd_data` never depends on the
byte of the same cycle. -/
def Obligations.NoSameCellAccess : Prop :=
  (∀ (s t : State) (r : Regs s.cfg.aw) (d : Byte), s.block = .live r → r.Inv → exec (.enqdeq d) s = .next t →
      t.out.wrAck = true → t.out.rdAck = true → r.wrPtr ≠ r.rdPtr) ∧
    ∀ (s t t' : State) (d d' : Byte), exec (.enqdeq d) s = .next t → exec (.enqdeq d') s = .next t' →
      t.out.rdData = t'.out.rdData

/-- What a command without reset leaves unchanged (R26, R101, R121, R82): the build, the drivers' words and the free
values; `wr_ptr` unless the write is acked; `rd_ptr` unless the read is acked; `count` unless a port is acked; every
cell but the tail one, and that too unless the write is acked. NOP and DEQ ack no write, NOP and ENQ no read. -/
def Obligations.CommandFrame : Prop :=
  ∀ (i : Instr) (s t : State) (r : Regs s.cfg.aw), i ≠ .rst → s.block = .live r → exec i s = .next t →
    ∃ (r' : Regs s.cfg.aw) (o : Output s.cfg.aw), t = { s with block := .live r', out := o } ∧
      (o.wrAck = false → r'.wrPtr = r.wrPtr ∧ ∀ a, readCell r'.mem a = readCell r.mem a) ∧
      (o.rdAck = false → r'.rdPtr = r.rdPtr) ∧
      (o.wrAck = false → o.rdAck = false → r'.count = r.count) ∧
      (∀ a, a ≠ r.wrPtr.toNat → readCell r'.mem a = readCell r.mem a) ∧
      (i = .nop ∨ i = .deq → o.wrAck = false) ∧
      (i = .nop ∨ (∃ d, i = .enq d) → o.rdAck = false)

-- ---------------------------------------------------------------------------------------------------------------
-- The whole cycle and its laws (43_simultaneous.md)

/-- R144: every command is a case of the one-cycle step function, on live registers and every input. -/
def Obligations.CommandsAreCasesOfTheCycle : Prop :=
  ∀ (i : Input) (s : State) (r : Regs s.cfg.aw), s.block = .live r →
    driveCycle i s = .next { s with block := .live (blockCycle i r).1, out := (blockCycle i r).2 }

/-- R145: `wa` depends only on `rst`, `wr_en` and the count, and `ra` only on `rst`, `rd_en` and the count, so `full`
alone predicts the one and `empty` alone the other. -/
def Obligations.PortsAreIndependent : Prop :=
  ∀ (i : Input) (s : State) (r : Regs s.cfg.aw), s.block = .live r →
    ∃ t, driveCycle i s = .next t ∧
      t.out.wrAck = (!i.rst && i.wrEn && decide (r.count.toNat ≠ 2 ^ s.cfg.aw)) ∧
      t.out.rdAck = (!i.rst && i.rdEn && decide (r.count.toNat ≠ 0)) ∧
      t.out.wrAck = (!i.rst && i.wrEn && !(lengthOf s).full) ∧
      t.out.rdAck = (!i.rst && i.rdEn && !(lengthOf s).empty)

/-- R143: the count changes by the acks of the cycle, both counted, and never leaves 0 .. C. -/
def Obligations.CountCountsTheAcks : Prop :=
  ∀ (i : Input) (s : State) (r : Regs s.cfg.aw), s.block = .live r → r.Inv → i.rst = false →
    ∃ (r' : Regs s.cfg.aw) (o : Output s.cfg.aw),
      driveCycle i s = .next { s with block := .live r', out := o } ∧
        (r'.count.toNat : Int) = r.count.toNat + (if o.wrAck then 1 else 0) - (if o.rdAck then 1 else 0) ∧
        r'.count.toNat ≤ 2 ^ s.cfg.aw ∧
        (o.wrAck = true → r.count.toNat < 2 ^ s.cfg.aw) ∧ (o.rdAck = true → 0 < r.count.toNat)

/-- R147: the abstract contents after each kind of cycle. -/
def Obligations.ContentsLaws : Prop :=
  ∀ (i : Input) (s : State) (r : Regs s.cfg.aw), s.block = .live r → r.Inv →
    ∃ (r' : Regs s.cfg.aw) (o : Output s.cfg.aw),
      driveCycle i s = .next { s with block := .live r', out := o } ∧
        (i.rst = true → contentsOf r' = []) ∧
        (i.rst = false → o.wrAck = false → o.rdAck = false → contentsOf r' = contentsOf r) ∧
        (i.rst = false → o.wrAck = true → o.rdAck = false → contentsOf r' = contentsOf r ++ [i.wrData]) ∧
        (i.rst = false → o.wrAck = false → o.rdAck = true → contentsOf r = o.rdData :: contentsOf r') ∧
        (i.rst = false → o.wrAck = true → o.rdAck = true →
          ∃ q, contentsOf r = o.rdData :: q ∧ contentsOf r' = q ++ [i.wrData])

/-- R150: every cycle equals its requests run one after the other on the sequential queue of capacity C: dequeue first
at count 0, enqueue first at count C, either order between. -/
def Obligations.CycleSerialises : Prop :=
  ∀ (i : Input) (s : State) (r : Regs s.cfg.aw), s.block = .live r → r.Inv → i.rst = false →
    ∃ (r' : Regs s.cfg.aw) (o : Output s.cfg.aw),
      driveCycle i s = .next { s with block := .live r', out := o } ∧
        (r.count.toNat ≠ 2 ^ s.cfg.aw →
          ∃ q, serialDequeue i (contentsOf r) = ((if o.rdAck then some o.rdData else none), q) ∧
            serialEnqueue (2 ^ s.cfg.aw) i q = (o.wrAck, contentsOf r')) ∧
        (r.count.toNat ≠ 0 →
          ∃ q, serialEnqueue (2 ^ s.cfg.aw) i (contentsOf r) = (o.wrAck, q) ∧
            serialDequeue i q = ((if o.rdAck then some o.rdData else none), contentsOf r'))

/-- R23, R24, R148, R149 as an invariant of every step: from any state in which the storage is canonical,
`count <= C` and `wr_ptr = (rd_ptr + count) mod C`, a step gives such a state, and a reset gives one from any state. -/
def Obligations.InvariantIsKept : Prop :=
  (∀ s t : State, s.Inv → step s = .next t → t.Inv) ∧
    (∀ s t : State, exec .rst s = .next t → t.Inv) ∧
    ∀ (s : State) (r : Regs s.cfg.aw), s.Inv → s.block = .live r →
      r.count.toNat ≤ 2 ^ s.cfg.aw ∧ r.count.toNat = (contentsOf r).length ∧
        r.wrPtr.toNat = (r.rdPtr.toNat + r.count.toNat) % 2 ^ s.cfg.aw

/-- The invariant holds at reset, for every build, and at power-on, where it says nothing yet. -/
def Obligations.ResetMeetsTheInvariant : Prop :=
  State.reset.Inv ∧ ∀ cfg : Config, (State.resetFor cfg).Inv ∧ (State.powerOn cfg).Inv

/-- R25: the indices are equal exactly at count 0 and at count C. -/
def Obligations.IndexEqualityIsEmptyOrFull : Prop :=
  ∀ (aw : Nat) (r : Regs aw), r.Inv →
    ((r.wrPtr = r.rdPtr ↔ r.count.toNat = 0 ∨ r.count.toNat = 2 ^ aw) ∧
      (isEmpty r = true ↔ r.count.toNat = 0) ∧ (isFull r = true ↔ r.count.toNat = 2 ^ aw))

/-- R28: the flags are functions of the count, never both 1, and after reset `full = 0` and `empty = 1`. -/
def Obligations.FlagsFollowTheCount : Prop :=
  (∀ (s : State) (r : Regs s.cfg.aw), s.block = .live r →
      (lengthOf s).full = decide (r.count.toNat = 2 ^ s.cfg.aw) ∧
        (lengthOf s).empty = decide (r.count.toNat = 0) ∧
        ¬((lengthOf s).full = true ∧ (lengthOf s).empty = true)) ∧
    ∀ cfg, (lengthOf (State.resetFor cfg)).full = false ∧ (lengthOf (State.resetFor cfg)).empty = true

/-- R41: the masked increment is the increment modulo C and the plain AW-bit increment; it wraps from C - 1 to 0; and in
a command without reset each index stays or is incremented once. -/
def Obligations.MaskedIncrement : Prop :=
  (∀ (aw : Nat) (p : BitVec aw),
      (nextIndex aw p).toNat = (p.toNat + 1) &&& (2 ^ aw - 1) ∧ (nextIndex aw p).toNat = (p.toNat + 1) % 2 ^ aw ∧
        nextIndex aw p = p + 1 ∧ (p.toNat = 2 ^ aw - 1 → nextIndex aw p = 0)) ∧
    ∀ (i : Instr) (s : State) (r : Regs s.cfg.aw), i ≠ .rst → s.block = .live r →
      ∃ (r' : Regs s.cfg.aw) (o : Output s.cfg.aw), exec i s = .next { s with block := .live r', out := o } ∧
        (r'.wrPtr = r.wrPtr ∨ r'.wrPtr = nextIndex _ r.wrPtr) ∧ (r'.rdPtr = r.rdPtr ∨ r'.rdPtr = nextIndex _ r.rdPtr)

/-- R50: a byte written in cycle t is readable from cycle t+1 on and not in cycle t; a cell freed in cycle t is writable
from cycle t+1 on and not in cycle t. -/
def Obligations.NoSameCycleBypass : Prop :=
  ∀ (s : State) (r : Regs s.cfg.aw) (d d' : Byte), s.block = .live r → r.Inv →
    ∃ t u v : State, exec (.enqdeq d) s = .next t ∧ exec .deq t = .next u ∧ exec (.enq d') t = .next v ∧
      (r.count.toNat = 0 → t.out.wrAck = true ∧ t.out.rdAck = false ∧ t.out.rdData = 0x00 ∧
        u.out.rdAck = true ∧ u.out.rdData = d) ∧
      (r.count.toNat = 2 ^ s.cfg.aw → t.out.rdAck = true ∧ t.out.wrAck = false ∧ v.out.wrAck = true)

/-- R84 (a), (c) and R187: whatever the command, `count_o`, `full` and `empty` of the cycle show the count latched
before it, the one LENGTH shows, and it lies in 0 .. C. -/
def Obligations.OccupancyLagsOneCycle : Prop :=
  ∀ (i : Instr) (s t : State) (r : Regs s.cfg.aw), s.block = .live r → r.Inv → exec i s = .next t →
    t.out.countO.toNat = r.count.toNat ∧ t.out.full = (lengthOf s).full ∧ t.out.empty = (lengthOf s).empty ∧
      (lengthOf s).countO = r.count ∧ t.out.countO.toNat ≤ 2 ^ s.cfg.aw ∧
      (t.out.full = true ↔ t.out.countO.toNat = 2 ^ s.cfg.aw)

/-- R84 (d) and R85: without reset only the producer's own writes raise the count and only the consumer's own reads
lower it, so an agent that saw room (a byte) and requests nothing is accepted in the next cycle. -/
def Obligations.SampledCountIsASafeBound : Prop :=
  ∀ (i j : Input) (s : State) (r : Regs s.cfg.aw), s.block = .live r → r.Inv → i.rst = false → j.rst = false →
    ∃ (r' : Regs s.cfg.aw) (o : Output s.cfg.aw) (u : State),
      driveCycle i s = .next { s with block := .live r', out := o } ∧
        driveCycle j { s with block := .live r', out := o } = .next u ∧
        (i.wrEn = false → r'.count.toNat ≤ r.count.toNat) ∧ (i.rdEn = false → r.count.toNat ≤ r'.count.toNat) ∧
        (i.wrEn = false → j.wrEn = true → (lengthOf s).full = false → u.out.wrAck = true) ∧
        (i.rdEn = false → j.rdEn = true → (lengthOf s).empty = false → u.out.rdAck = true)

/-- R161: the status codes of a cycle, read off its inputs and outputs. -/
def Obligations.StatusCodes : Prop :=
  ∀ (i : Input) (s t : State) (r : Regs s.cfg.aw), s.block = .live r → driveCycle i s = .next t →
    (i.wrEn = false ∨ i.rst = true → writeStatusOf i t.out = .idle) ∧
      (i.wrEn = true → i.rst = false → r.count.toNat ≠ 2 ^ s.cfg.aw → writeStatusOf i t.out = .ok) ∧
      (i.wrEn = true → i.rst = false → r.count.toNat = 2 ^ s.cfg.aw →
        writeStatusOf i t.out = .full ∧ t.out.full = true) ∧
      (i.rdEn = false ∨ i.rst = true → readStatusOf i t.out = .idle) ∧
      (i.rdEn = true → i.rst = false → r.count.toNat ≠ 0 →
        readStatusOf i t.out = .ok ∧ t.out.rdData = readCell r.mem r.rdPtr.toNat) ∧
      (i.rdEn = true → i.rst = false → r.count.toNat = 0 →
        readStatusOf i t.out = .empty ∧ t.out.empty = true ∧ t.out.rdData = 0x00)

/-- R48, R47: a read that is accepted removes the head byte, so repeating it returns the next byte: DEQ is not
idempotent. -/
def Obligations.DeqTakesTheNextByte : Prop :=
  ∀ (s : State) (r : Regs s.cfg.aw) (a b : Byte) (q : List Byte), s.block = .live r → r.Inv →
    contentsOf r = a :: b :: q →
    ∃ (t u : State) (r' : Regs s.cfg.aw) (o : Output s.cfg.aw),
      exec .deq s = .next t ∧ t.out.rdAck = true ∧ t.out.rdData = a ∧
        exec .deq t = .next u ∧ u.out.rdAck = true ∧ u.out.rdData = b ∧
        u = { s with block := .live r', out := o } ∧ contentsOf r' = q

/-- R151, R152 as an invariant of every step: if the bytes accepted by the write port are the bytes returned by the
read port followed by the contents, they are so after the step too (a reset begins both histories anew). -/
def Obligations.FifoHistoryIsKept : Prop :=
  ∀ (s t : State) (h : History) (r : Regs s.cfg.aw), s.block = .live r → r.Inv →
    h.written = h.returned ++ contentsOf r → step s = .next t →
    ∃ r' : Regs t.cfg.aw, t.block = .live r' ∧ r'.Inv ∧
      (h.after (Input.ofWord (fetchWord s)) t.out).written =
        (h.after (Input.ofWord (fetchWord s)) t.out).returned ++ contentsOf r'

/-- R151, R47: from any state whatever, once a cycle resets, and after any number of cycles since, the bytes accepted by
the write port are the bytes returned by the read port followed by the contents: no byte is duplicated, dropped or
reordered. Where `State.inputs` gives no word the agents' choices are free, so this is every run. -/
def Obligations.FifoLaw : Prop :=
  ∀ (n : Nat) (s : State) (h : History), rstBit (fetchWord s) = true →
    ∃ (t : State) (h' : History) (r : Regs t.cfg.aw),
      runCycles (n + 1) s h = some (t, h') ∧ t.block = .live r ∧ h'.written = h'.returned ++ contentsOf r ∧
        ∀ k, k < h'.returned.length → h'.returned[k]? = h'.written[k]?

/-- R152: since the last reset, `count` is the number of accepted writes less the number of accepted reads, and it lies
in 0 .. C. -/
def Obligations.OccupancyLaw : Prop :=
  ∀ (n : Nat) (s : State) (h : History), rstBit (fetchWord s) = true →
    ∃ (t : State) (h' : History) (r : Regs t.cfg.aw),
      runCycles (n + 1) s h = some (t, h') ∧ t.block = .live r ∧
        (r.count.toNat : Int) = (h'.written.length : Int) - h'.returned.length ∧ r.count.toNat ≤ 2 ^ t.cfg.aw

-- ---------------------------------------------------------------------------------------------------------------
-- Host transactions (30_encoding.md R69, R70; 41_enqueue.md R104 to R107; 42_dequeue.md R124 to R127)

/-- R104 with no request by the other side: ENQN stores exactly the first `k` bytes at the tail, in order, where `k` is
what fits, and takes `k` cycles, or one more when it is turned away. -/
def Obligations.EnqnStoresWhatFits : Prop :=
  ∀ (other : Nat → ConsumerSide) (bs : List Byte) (s : State) (r : Regs s.cfg.aw) (k : Nat),
    (∀ t, other t = ⟨false, .idle⟩) → s.block = .live r → r.Inv →
    k = min bs.length (2 ^ s.cfg.aw - r.count.toNat) →
    ∃ (r' : Regs s.cfg.aw) (o : Output s.cfg.aw),
      enqn other bs s = .next ⟨k, min bs.length (k + 1), { s with block := .live r', out := o }⟩ ∧
        contentsOf r' = contentsOf r ++ bs.take k ∧ r'.Inv

/-- R105: the bounds on ENQN's result, with the consumer reading as it likes. -/
def Obligations.EnqnBounds : Prop :=
  ∀ (other : Nat → ConsumerSide) (bs : List Byte) (s : State) (r : Regs s.cfg.aw), s.block = .live r → r.Inv →
    ∃ f : Finished Nat, enqn other bs s = .next f ∧ f.result ≤ bs.length ∧ f.cycles ≤ bs.length ∧
      (f.result < bs.length → f.cycles = f.result + 1 ∧ f.state.out.wrAck = false) ∧
      ((∀ t, (other t).rst = false) → min bs.length (2 ^ s.cfg.aw - r.count.toNat) ≤ f.result) ∧
      ((∀ t, other t = ⟨false, .idle⟩) → f.result = min bs.length (2 ^ s.cfg.aw - r.count.toNat))

/-- R124 with no request by the other side: DEQN returns the first `k` bytes of the contents, oldest first, where `k`
is what is stored, up to `n`. -/
def Obligations.DeqnReturnsWhatIsStored : Prop :=
  ∀ (other : Nat → ProducerSide) (n : Nat) (s : State) (r : Regs s.cfg.aw) (k : Nat),
    (∀ t, other t = ⟨false, .idle⟩) → s.block = .live r → r.Inv → k = min n r.count.toNat →
    ∃ (r' : Regs s.cfg.aw) (o : Output s.cfg.aw),
      deqn other n s =
          .next ⟨(contentsOf r).take k, min n (k + 1), { s with block := .live r', out := o }⟩ ∧
        contentsOf r' = (contentsOf r).drop k ∧ r'.Inv

/-- R125: the bounds on DEQN's result, with the producer writing as it likes; what was stored at the start comes out
first, oldest first. -/
def Obligations.DeqnBounds : Prop :=
  ∀ (other : Nat → ProducerSide) (n : Nat) (s : State) (r : Regs s.cfg.aw), s.block = .live r → r.Inv →
    ∃ f : Finished (List Byte), deqn other n s = .next f ∧ f.result.length ≤ n ∧ f.cycles ≤ n ∧
      (f.result.length < n → f.cycles = f.result.length + 1 ∧ f.state.out.rdAck = false) ∧
      ((∀ t, (other t).rst = false) → min n r.count.toNat ≤ f.result.length ∧
        f.result.take r.count.toNat = (contentsOf r).take f.result.length) ∧
      ((∀ t, other t = ⟨false, .idle⟩) → f.result.length = min n r.count.toNat)

/-- R107: offering C + k bytes to an empty FIFO stores exactly C, and every later offer returns 0 and leaves the block
as it was, while no read is accepted (`o` is whatever the output ports last showed, so this covers the next offer too). -/
def Obligations.CapacityBoundary : Prop :=
  ∀ (other : Nat → ConsumerSide) (bs : List Byte) (s : State) (r : Regs s.cfg.aw),
    (∀ t, other t = ⟨false, .idle⟩) → s.block = .live r → r.Inv → r.count.toNat = 0 →
    2 ^ s.cfg.aw < bs.length →
    ∃ f : Finished Nat, enqn other bs s = .next f ∧ f.result = 2 ^ s.cfg.aw ∧
      ∀ (more : List Byte) (o : Output f.state.cfg.aw),
        ∃ (g : Finished Nat) (o' : Output f.state.cfg.aw),
          enqn other more { f.state with out := o } = .next g ∧ g.result = 0 ∧ g.state = { f.state with out := o' }

/-- R127: the round trip, and the empty boundary. ENQN of a sequence that fits an empty FIFO returns its length, and
DEQN of that length then returns exactly the sequence and leaves the FIFO empty; DEQN of an empty FIFO returns 0 after
one rejected cycle and leaves the block as it was. -/
def Obligations.RoundTrip : Prop :=
  ∀ (consumer : Nat → ConsumerSide) (producer : Nat → ProducerSide) (bs : List Byte) (s : State)
    (r : Regs s.cfg.aw),
    (∀ t, consumer t = ⟨false, .idle⟩) → (∀ t, producer t = ⟨false, .idle⟩) → s.block = .live r → r.Inv →
    r.count.toNat = 0 →
    (bs.length ≤ 2 ^ s.cfg.aw →
      ∃ (f : Finished Nat) (g : Finished (List Byte)),
        enqn consumer bs s = .next f ∧ f.result = bs.length ∧
          deqn producer bs.length f.state = .next g ∧ g.result = bs ∧ (lengthOf g.state).empty = true) ∧
      ∀ n, 0 < n → ∃ o : Output s.cfg.aw, deqn producer n s = .next ⟨[], 1, { s with out := o }⟩

/-- R184: a transaction running across a reset stops there, and every byte stored before is discarded. -/
def Obligations.ResetStopsTransactions : Prop :=
  (∀ (other : Nat → ConsumerSide) (bs : List Byte) (s : State) (r : Regs s.cfg.aw) (j : Nat), s.block = .live r →
      (other j).rst = true → ∃ f : Finished Nat, enqn other bs s = .next f ∧ f.result ≤ j ∧ f.cycles ≤ j + 1 ∧
        (f.cycles = j + 1 → ∃ r', f.state.block = .live r' ∧ contentsOf r' = [])) ∧
    ∀ (other : Nat → ProducerSide) (n : Nat) (s : State) (r : Regs s.cfg.aw) (j : Nat), s.block = .live r →
      (other j).rst = true → ∃ f : Finished (List Byte), deqn other n s = .next f ∧ f.result.length ≤ j ∧
        f.cycles ≤ j + 1 ∧ (f.cycles = j + 1 → ∃ r', f.state.block = .live r' ∧ contentsOf r' = [])

/-- R70, R188: PUTB ends in its first cycle when there is room; while the FIFO is full and the consumer idle it blocks,
however long it is watched; and it ends in the cycle after the consumer's first read. -/
def Obligations.PutbEndsWhenRoomIsMade : Prop :=
  ∀ (other : Nat → ConsumerSide) (b : Byte) (s : State) (r : Regs s.cfg.aw) (fuel : Nat),
    s.block = .live r → r.Inv →
    ((other 0).rst = false → r.count.toNat < 2 ^ s.cfg.aw →
        ∃ t, putb other b (fuel + 1) s = .next (some ⟨(), 1, t⟩) ∧ t.out.wrAck = true) ∧
      (r.count.toNat = 2 ^ s.cfg.aw → (∀ t, t < fuel → other t = ⟨false, .idle⟩) →
        putb other b fuel s = .next none) ∧
      (r.count.toNat = 2 ^ s.cfg.aw → (∀ t, t < fuel → other t = ⟨false, .idle⟩) →
        other fuel = ⟨false, .dequeue⟩ → (other (fuel + 1)).rst = false →
        ∃ t, putb other b (fuel + 2) s = .next (some ⟨(), fuel + 2, t⟩) ∧ t.out.wrAck = true)

/-- R70, R188: GETB returns the head byte in its first cycle when there is one; while the FIFO is empty and the producer
idle it blocks; and it returns the producer's first byte in the cycle after it is written. -/
def Obligations.GetbEndsWhenAByteComes : Prop :=
  ∀ (other : Nat → ProducerSide) (d : Byte) (s : State) (r : Regs s.cfg.aw) (fuel : Nat),
    s.block = .live r → r.Inv →
    ((other 0).rst = false → r.count.toNat ≠ 0 →
        ∃ t, getb other (fuel + 1) s = .next (some ⟨readCell r.mem r.rdPtr.toNat, 1, t⟩) ∧ t.out.rdAck = true) ∧
      (r.count.toNat = 0 → (∀ t, t < fuel → other t = ⟨false, .idle⟩) → getb other fuel s = .next none) ∧
      (r.count.toNat = 0 → (∀ t, t < fuel → other t = ⟨false, .idle⟩) →
        other fuel = ⟨false, .enqueue d⟩ → (other (fuel + 1)).rst = false →
        ∃ t, getb other (fuel + 2) s = .next (some ⟨d, fuel + 2, t⟩) ∧ t.out.rdAck = true)

/-- R69: ENQN of no bytes and DEQN 0 take no cycle and return 0, and IDLE by both agents leaves the block as it was. -/
def Obligations.EmptyAndIdleTransactions : Prop :=
  (∀ (other : Nat → ConsumerSide) (s : State), enqn other [] s = .next ⟨0, 0, s⟩) ∧
    (∀ (other : Nat → ProducerSide) (s : State), deqn other 0 s = .next ⟨[], 0, s⟩) ∧
    ∀ (consumer : Nat → ConsumerSide) (producer : Nat → ProducerSide) (k : Nat) (s : State) (r : Regs s.cfg.aw),
      (∀ t, consumer t = ⟨false, .idle⟩) → (∀ t, producer t = ⟨false, .idle⟩) → s.block = .live r →
      ∃ o o' : Output s.cfg.aw, idleWriteFrom consumer 0 k s = .next { s with out := o } ∧
        idleReadFrom producer 0 k s = .next { s with out := o' }

-- ---------------------------------------------------------------------------------------------------------------
-- Two blocks (10_state.md R35)

/-- R35: two blocks share nothing: in whichever order they take their cycles, each ends the same, and a cycle of one
leaves the other as it was. -/
def Obligations.PairSharesNothing : Prop :=
  (∀ p q q' : BufferPair, stepTx p = .next q → stepRx q = .next q' →
      ∃ p', stepRx p = .next p' ∧ stepTx p' = .next q') ∧
    (∀ p q : BufferPair, stepTx p = .next q → q.rx = p.rx ∧ step p.tx = .next q.tx) ∧
    ∀ p q : BufferPair, stepRx p = .next q → q.tx = p.tx ∧ step p.rx = .next q.rx
end

