-- ==== Sys2Proof/Laws/Memory.lean ====
section
/-! SUPPORT. The laws of the storage operations: a read after a write to the same index gives the byte written, a
write leaves every other index alone and keeps the canonical form, and canonical storages that read alike are equal. -/

namespace Sys2Proof.Machine

@[simp] theorem readCell_nil (a : Nat) : readCell [] a = 0#8 := rfl

/-- A storage that lists nothing below `lo` reads 0x00 there. -/
theorem readCell_below {lo hi : Nat} {m : List Host.Cell} (h : wfCellsFrom lo hi m = true) {a : Nat} (ha : a < lo) :
    readCell m a = 0#8 := by
  induction m generalizing lo with
  | nil => rfl
  | cons c m ih =>
    obtain ⟨b, v⟩ := c
    simp only [wfCellsFrom, Bool.and_eq_true, decide_eq_true_eq] at h
    have hb : b ≠ a := by omega
    simp only [readCell, hb, if_false]
    exact ih h.2 (by omega)

/-- Reading the written index gives the byte written. -/
theorem readCell_writeCell_same {lo hi : Nat} {m : List Host.Cell} (h : wfCellsFrom lo hi m = true) (a : Nat)
    (v : Byte) : readCell (writeCell m a v) a = v := by
  induction m generalizing lo with
  | nil => by_cases hv : v = 0#8 <;> simp [writeCell, readCell, hv]
  | cons c m ih =>
    obtain ⟨b, w⟩ := c
    simp only [wfCellsFrom, Bool.and_eq_true, decide_eq_true_eq] at h
    simp only [writeCell]
    split
    · have hb : b ≠ a := by omega
      by_cases hv : v = 0#8
      · rw [if_pos hv, hv]
        simp only [readCell, hb, if_false]
        exact readCell_below h.2 (by omega)
      · simp [hv, readCell]
    · split
      · next hab =>
        by_cases hv : v = 0#8
        · rw [if_pos hv, hv]
          exact readCell_below h.2 (by omega)
        · simp [hv, readCell]
      · next hab =>
        have hb : b ≠ a := fun e => hab e.symm
        simp only [readCell, hb, if_false]
        exact ih h.2

/-- A write leaves every other index alone. -/
theorem readCell_writeCell_other {m : List Host.Cell} {a b : Nat} (hab : b ≠ a) (v : Byte) :
    readCell (writeCell m a v) b = readCell m b := by
  induction m with
  | nil => by_cases hv : v = 0#8 <;> simp [writeCell, readCell, hv, hab.symm]
  | cons c m ih =>
    obtain ⟨e, w⟩ := c
    simp only [writeCell]
    split
    · by_cases hv : v = 0#8 <;> simp [hv, readCell, hab.symm]
    · split
      · next h =>
        subst h
        by_cases hv : v = 0#8 <;> simp [hv, readCell, hab.symm]
      · simp only [readCell, ih]

/-- A write keeps the canonical form. -/
theorem wfCellsFrom_writeCell {lo hi : Nat} {m : List Host.Cell} (h : wfCellsFrom lo hi m = true) {a : Nat}
    (hlo : lo ≤ a) (hhi : a < hi) (v : Byte) : wfCellsFrom lo hi (writeCell m a v) = true := by
  induction m generalizing lo with
  | nil => by_cases hv : v = 0#8 <;> simp [writeCell, wfCellsFrom, hv, hlo, hhi]
  | cons c m ih =>
    obtain ⟨b, w⟩ := c
    simp only [wfCellsFrom, Bool.and_eq_true, decide_eq_true_eq, bne_iff_ne] at h
    obtain ⟨⟨⟨hb1, hb2⟩, hw⟩, hm⟩ := h
    simp only [writeCell]
    split
    · have hb : a + 1 ≤ b := by omega
      by_cases hv : v = 0#8 <;> simp [hv, wfCellsFrom, hlo, hhi, hb, hb1, hb2, hw, hm]
    · split
      · next hab =>
        subst hab
        by_cases hv : v = 0#8
        · rw [if_pos hv]
          clear ih
          cases m with
          | nil => rfl
          | cons e m =>
            simp only [wfCellsFrom, Bool.and_eq_true, decide_eq_true_eq] at hm ⊢
            exact ⟨⟨⟨by omega, hm.1.1.2⟩, hm.1.2⟩, hm.2⟩
        · simp [hv, wfCellsFrom, hlo, hhi, hm]
      · have := ih hm (by omega)
        simp [wfCellsFrom, hb1, hb2, hw, this]

/-- Every index of the block lies in its storage, so a write by either port keeps the canonical form. -/
theorem Memory.wf_writeCell {c : Nat} {m : List Host.Cell} (h : Memory.wf c m = true) {a : Nat} (ha : a < c)
    (v : Byte) : Memory.wf c (writeCell m a v) = true :=
  wfCellsFrom_writeCell h (Nat.zero_le a) ha v

/-- A canonical storage reads 0x00 outside its indices. -/
theorem readCell_outside {lo hi : Nat} {m : List Host.Cell} (h : wfCellsFrom lo hi m = true) {a : Nat} (ha : hi ≤ a) :
    readCell m a = 0#8 := by
  induction m generalizing lo with
  | nil => rfl
  | cons c m ih =>
    obtain ⟨b, v⟩ := c
    simp only [wfCellsFrom, Bool.and_eq_true, decide_eq_true_eq] at h
    have hb : b ≠ a := by omega
    simp only [readCell, hb, if_false]
    exact ih h.2

/-- Canonical storages that read alike at every index are equal lists. -/
theorem eq_of_readCell_eq {lo hi : Nat} {m m' : List Host.Cell} (h : wfCellsFrom lo hi m = true)
    (h' : wfCellsFrom lo hi m' = true) (heq : ∀ a, readCell m a = readCell m' a) : m = m' := by
  induction m generalizing lo m' with
  | nil =>
    cases m' with
    | nil => rfl
    | cons c m' =>
      obtain ⟨b, v⟩ := c
      simp only [wfCellsFrom, Bool.and_eq_true, bne_iff_ne] at h'
      exact absurd (heq b).symm (by simpa [readCell] using h'.1.2)
  | cons c m ih =>
    obtain ⟨b, v⟩ := c
    have hb := heq b
    simp only [wfCellsFrom, Bool.and_eq_true, decide_eq_true_eq, bne_iff_ne] at h
    cases m' with
    | nil => exact absurd hb (by simpa [readCell] using h.1.2)
    | cons c' m' =>
      obtain ⟨b', v'⟩ := c'
      simp only [wfCellsFrom, Bool.and_eq_true, decide_eq_true_eq, bne_iff_ne] at h'
      have hbb : b = b' := by
        by_contra hne
        rcases Nat.lt_or_gt_of_ne hne with hlt | hlt
        · have hz : readCell m' b = 0#8 := readCell_below h'.2 (by omega)
          have hne' : b' ≠ b := by omega
          simp only [readCell, if_true, hne', if_false, hz] at hb
          exact h.1.2 hb
        · have hz : readCell m b' = 0#8 := readCell_below h.2 (by omega)
          have hb' := heq b'
          simp only [readCell, if_true, hne, if_false, hz] at hb'
          exact h'.1.2 hb'.symm
      subst hbb
      have hv : v = v' := by simpa [readCell] using hb
      subst hv
      have hm : m = m' := by
        refine ih h.2 h'.2 fun a => ?_
        by_cases hab : b = a
        · subst hab
          rw [readCell_below h.2 (Nat.lt_succ_self _), readCell_below h'.2 (Nat.lt_succ_self _)]
        · simpa [readCell, hab] using heq a
      rw [hm]

/-- The reset storage is canonical. -/
theorem Memory.wf_reset (aw : Nat) : Memory.wf (2 ^ aw) (Regs.reset aw).mem = true := rfl

/-- The storage of `State.reset` is canonical. -/
theorem State.reset_memory_wf :
    ∃ r, State.reset.block = .live r ∧ Memory.wf State.reset.cfg.capacity r.mem = true :=
  ⟨_, rfl, rfl⟩

end Sys2Proof.Machine
end

