-- ==== Sys2Proof/Laws/State.lean ====
section
/-! SUPPORT. One lemma per field per update, so that no later proof unfolds a record update. -/

namespace Sys2Proof.Machine

section Latch
variable (s : State) (r : Regs s.cfg.aw) (o : Output s.cfg.aw)

@[simp] theorem State.latch_cfg : (s.latch r o).cfg = s.cfg := rfl
@[simp] theorem State.latch_block : (s.latch r o).block = .live r := rfl
@[simp] theorem State.latch_out : (s.latch r o).out = o := rfl
@[simp] theorem State.latch_inputs : (s.latch r o).inputs = s.inputs := rfl
@[simp] theorem State.latch_wordDraws : (s.latch r o).wordDraws = s.wordDraws := rfl
@[simp] theorem State.latch_outputDraws : (s.latch r o).outputDraws = s.outputDraws := rfl

end Latch

section PortEdge
variable {aw : Nat} (wa ra : Bool) (d : Byte) (r : Regs aw)

@[simp] theorem portEdge_mem :
    (portEdge wa ra d r).mem = if wa then writeCell r.mem r.wrPtr.toNat d else r.mem := rfl
@[simp] theorem portEdge_wrPtr : (portEdge wa ra d r).wrPtr = if wa then nextIndex aw r.wrPtr else r.wrPtr := rfl
@[simp] theorem portEdge_rdPtr : (portEdge wa ra d r).rdPtr = if ra then nextIndex aw r.rdPtr else r.rdPtr := rfl
@[simp] theorem portEdge_count : (portEdge wa ra d r).count = nextCount aw r.count wa ra := rfl

@[simp] theorem outputsOf_wrAck : (outputsOf wa ra r).wrAck = wa := rfl
@[simp] theorem outputsOf_rdAck : (outputsOf wa ra r).rdAck = ra := rfl
@[simp] theorem outputsOf_rdData : (outputsOf wa ra r).rdData = if ra then headByte r else 0 := rfl
@[simp] theorem outputsOf_countO : (outputsOf wa ra r).countO = r.count := rfl
@[simp] theorem outputsOf_full : (outputsOf wa ra r).full = isFull r := rfl
@[simp] theorem outputsOf_empty : (outputsOf wa ra r).empty = isEmpty r := rfl

end PortEdge

section Reset
variable (aw : Nat) (c : Config)

@[simp] theorem Regs.reset_mem : (Regs.reset aw).mem = [] := rfl
@[simp] theorem Regs.reset_wrPtr : (Regs.reset aw).wrPtr = 0 := rfl
@[simp] theorem Regs.reset_rdPtr : (Regs.reset aw).rdPtr = 0 := rfl
@[simp] theorem Regs.reset_count : (Regs.reset aw).count = 0 := rfl
@[simp] theorem State.resetFor_cfg : (State.resetFor c).cfg = c := rfl
@[simp] theorem State.resetFor_block : (State.resetFor c).block = .live (Regs.reset c.aw) := rfl
@[simp] theorem State.resetFor_out : (State.resetFor c).out = Output.reset c.aw := rfl
@[simp] theorem State.resetFor_inputs : (State.resetFor c).inputs = [] := rfl
@[simp] theorem State.powerOn_block : (State.powerOn c).block = .unreset := rfl

end Reset

section Word
variable (s : State) (w : CmdWord) (n k : Nat)

@[simp] theorem fetchWord_presentWord : fetchWord (presentWord s w) = w := rfl
@[simp] theorem consumeWord_presentWord : consumeWord (presentWord s w) = { s with inputs := s.inputs.tail } := rfl
@[simp] theorem fetchWord_withFetchWord : fetchWord (s.withFetchWord n k) = BitVec.ofNat 11 k := rfl
@[simp] theorem State.powerLoss_block : s.powerLoss.block = .unreset := rfl

/-- Taking a word from the drivers leaves the block and its build parameter alone. -/
theorem consumeWord_eq : ∃ ws n, consumeWord s = { s with inputs := ws, wordDraws := n } := by
  cases h : s.inputs <;> simp only [consumeWord, h]
  · exact ⟨[], _, rfl⟩
  · exact ⟨_, s.wordDraws, rfl⟩

end Word

end Sys2Proof.Machine
end

