-- ==== Sys2Proof/Laws/Ops.lean ====
section
/-! SUPPORT. One lemma per shared operation over indices, count and registers, which later proofs cite instead of
unfolding it. -/

namespace Sys2Proof.Machine

/-- The masked increment is the increment modulo C (R41). -/
theorem nextIndex_toNat (aw : Nat) (p : BitVec aw) : (nextIndex aw p).toNat = (p.toNat + 1) % 2 ^ aw := by
  simp [nextIndex, BitVec.toNat_ofNat, Nat.and_two_pow_sub_one_eq_mod]

/-- The count update as a number, when it fits (R143). -/
theorem nextCount_toNat {aw : Nat} {n : BitVec (aw + 1)} {wa ra : Bool} (hn : n.toNat ≤ 2 ^ aw)
    (hw : wa = true → n.toNat < 2 ^ aw) :
    (nextCount aw n wa ra).toNat = n.toNat + (if wa then 1 else 0) - (if ra then 1 else 0) := by
  have hp : 0 < 2 ^ aw := Nat.two_pow_pos aw
  rw [nextCount, BitVec.toNat_ofNat, Nat.mod_eq_of_lt]
  cases wa <;> cases ra <;> simp at hw ⊢ <;> omega

theorem isFull_iff {aw : Nat} (r : Regs aw) : isFull r = true ↔ r.count.toNat = 2 ^ aw := by simp [isFull]

theorem isEmpty_iff {aw : Nat} (r : Regs aw) : isEmpty r = true ↔ r.count.toNat = 0 := by simp [isEmpty]

theorem writeAccepted_iff {aw : Nat} (r : Regs aw) : writeAccepted r = true ↔ r.count.toNat ≠ 2 ^ aw := by
  simp [writeAccepted, isFull]

theorem readAccepted_iff {aw : Nat} (r : Regs aw) : readAccepted r = true ↔ r.count.toNat ≠ 0 := by
  simp [readAccepted, isEmpty]

/-- A cycle in which neither port acts writes no register (R82, R102, R122). -/
@[simp] theorem portEdge_idle {aw : Nat} (d : Byte) (r : Regs aw) : portEdge false false d r = r := by
  simp [portEdge, nextCount]

/-- What `withRegs` answers on live registers. -/
theorem withRegs_live {s : State} {f : Regs s.cfg.aw → State} {r : Regs s.cfg.aw} (h : s.block = .live r) :
    withRegs s f = .next (f r) := by simp [withRegs, h]

/-- What `withRegs` answers before the first reset (D7). -/
theorem withRegs_unreset {s : State} {f : Regs s.cfg.aw → State} (h : s.block = .unreset) :
    withRegs s f = .fault .usedBeforeReset := by simp [withRegs, h]

/-- If `withRegs` answers a next state, the block had registers. -/
theorem withRegs_next {s t : State} {f : Regs s.cfg.aw → State} (h : withRegs s f = .next t) :
    ∃ r, s.block = .live r ∧ f r = t := by
  cases hb : s.block with
  | unreset => simp [withRegs, hb] at h
  | live r => exact ⟨r, rfl, by simpa [withRegs, hb] using h⟩

@[simp] theorem length_contentsOf {aw : Nat} (r : Regs aw) : (contentsOf r).length = r.count.toNat := by
  simp [contentsOf]

end Sys2Proof.Machine
end

