-- ==== Sys2Proof/Laws/Exec.lean ====
section
/-! SUPPORT. What `exec` answers, said once: each command on live registers is one `portEdge`, RST works from any
block, and before the first reset every other command faults. -/

namespace Sys2Proof.Machine

/-- The write port's acceptance in a command: requested, and not full (R145). -/
def wantsWrite {aw : Nat} (i : Instr) (r : Regs aw) : Bool :=
  match i with
  | .enq _ => writeAccepted r
  | .enqdeq _ => writeAccepted r
  | .nop => false
  | .deq => false
  | .rst => false

/-- The read port's acceptance in a command: requested, and not empty (R145). -/
def wantsRead {aw : Nat} (i : Instr) (r : Regs aw) : Bool :=
  match i with
  | .deq => readAccepted r
  | .enqdeq _ => readAccepted r
  | .nop => false
  | .enq _ => false
  | .rst => false

/-- Every command but RST, on live registers: one edge, in which each port acts as it was accepted (R144). -/
theorem exec_live {i : Instr} (hi : i ≠ .rst) {s : State} {r : Regs s.cfg.aw} (h : s.block = .live r) :
    exec i s = .next (s.latch (portEdge (wantsWrite i r) (wantsRead i r) (i.operand.getD 0) r)
      (outputsOf (wantsWrite i r) (wantsRead i r) r)) := by
  cases i with
  | nop => simp [exec, execNop, withRegs_live h, wantsWrite, wantsRead]
  | enq d =>
    cases hw : writeAccepted r <;>
      simp [exec, execEnq, withRegs_live h, wantsWrite, wantsRead, hw, Instr.operand, writeOperand]
  | deq =>
    cases hr : readAccepted r <;>
      simp [exec, execDeq, withRegs_live h, wantsWrite, wantsRead, hr, Instr.operand]
  | enqdeq d => simp [exec, execEnqdeq, withRegs_live h, wantsWrite, wantsRead, Instr.operand, writeOperand]
  | rst => exact absurd rfl hi

/-- Every command but RST faults before the first reset (D7, U5). -/
theorem exec_unreset {i : Instr} (hi : i ≠ .rst) {s : State} (h : s.block = .unreset) :
    exec i s = .fault .usedBeforeReset := by
  cases i <;>
    first
    | exact absurd rfl hi
    | simp [exec, execNop, execEnq, execDeq, execEnqdeq, withRegs_unreset h]

/-- RST answers the reset registers from any block (R80, R182). -/
theorem exec_rst (s : State) :
    exec .rst s = .next { s.latch (Regs.reset s.cfg.aw) (resetOutputs s) with outputDraws := drawsAfterReset s } :=
  rfl

/-- If a command answers a next state, it was RST, or the block had registers and took one edge. -/
theorem exec_next {i : Instr} {s t : State} (h : exec i s = .next t) :
    (i = .rst ∧
        t = { s.latch (Regs.reset s.cfg.aw) (resetOutputs s) with outputDraws := drawsAfterReset s }) ∨
      (i ≠ .rst ∧ ∃ r, s.block = .live r ∧
        t = s.latch (portEdge (wantsWrite i r) (wantsRead i r) (i.operand.getD 0) r)
          (outputsOf (wantsWrite i r) (wantsRead i r) r)) := by
  by_cases hi : i = .rst
  · subst hi
    rw [exec_rst] at h
    exact .inl ⟨rfl, by injection h with h; exact h.symm⟩
  · refine .inr ⟨hi, ?_⟩
    cases hb : s.block with
    | unreset => simp [exec_unreset hi hb] at h
    | live r =>
      rw [exec_live hi hb] at h
      exact ⟨r, rfl, by injection h with h; exact h.symm⟩

end Sys2Proof.Machine
end

