-- ==== Sys2Proof/Laws/Contents.lean ====
section
/-! SUPPORT. What one edge does to the invariant, to each cell and to the abstract contents, said once. -/

namespace Sys2Proof.Machine

section Edge
variable {aw : Nat} {r : Regs aw} {wa ra : Bool}

/-- The count after an edge in which each port acts only where it may. -/
theorem portEdge_count_toNat (h : r.Inv) (d : Byte) (hw : wa = true → r.count.toNat ≠ 2 ^ aw) :
    (portEdge wa ra d r).count.toNat = r.count.toNat + (if wa then 1 else 0) - (if ra then 1 else 0) := by
  have hle := h.2.1
  exact nextCount_toNat hle fun e => by have := hw e; omega

/-- Each cell after an edge: the tail cell holds the byte if the write port acts, every other cell is as before. -/
theorem readCell_portEdge (h : r.Inv) (d : Byte) (a : Nat) :
    readCell (portEdge wa ra d r).mem a = if wa = true ∧ a = r.wrPtr.toNat then d else readCell r.mem a := by
  cases wa with
  | false => simp
  | true =>
    by_cases ha : a = r.wrPtr.toNat
    · subst ha
      simp [readCell_writeCell_same h.1]
    · simp [readCell_writeCell_other ha, ha]

/-- An edge in which each port acts only where it may keeps the invariant. -/
theorem portEdge_inv (h : r.Inv) (d : Byte) (hw : wa = true → r.count.toNat ≠ 2 ^ aw)
    (hr : ra = true → r.count.toNat ≠ 0) : (portEdge wa ra d r).Inv := by
  have hcnt := portEdge_count_toNat (ra := ra) h d hw
  obtain ⟨hm, hc, hp⟩ := h
  have hC : 0 < 2 ^ aw := Nat.two_pow_pos aw
  refine ⟨?_, ?_, ?_⟩
  · cases wa with
    | false => simpa using hm
    | true => simpa using Memory.wf_writeCell hm r.wrPtr.isLt d
  · rw [hcnt]
    cases wa <;> cases ra <;> simp at hw hr ⊢ <;> omega
  · rw [hcnt]
    cases wa <;> cases ra <;> simp [nextIndex_toNat, hp] at hw hr ⊢
    · have e : r.rdPtr.toNat + 1 + (r.count.toNat - 1) = r.rdPtr.toNat + r.count.toNat := by omega
      rw [e]
    · rfl
    · rw [Nat.add_right_comm]

/-- The reset registers meet the invariant. -/
theorem Regs.reset_inv (aw : Nat) : (Regs.reset aw).Inv := ⟨rfl, by simp, by simp⟩

@[simp] theorem contentsOf_reset (aw : Nat) : contentsOf (Regs.reset aw) = [] := by simp [contentsOf]

/-- The contents of a FIFO that is not empty begin with the head byte. -/
theorem contentsOf_eq_head_cons (h0 : r.count.toNat ≠ 0) : ∃ q, contentsOf r = headByte r :: q := by
  obtain ⟨n, hn⟩ := Nat.exists_eq_succ_of_ne_zero h0
  refine ⟨(List.range n).map fun j => readCell r.mem ((r.rdPtr.toNat + (j + 1)) % 2 ^ aw), ?_⟩
  simp [contentsOf, hn, List.range_succ_eq_map, Function.comp_def, headByte, headIndex,
    Nat.mod_eq_of_lt r.rdPtr.isLt]

/-- The cell an accepted write fills holds no stored byte. -/
theorem storedIndex_ne_tail (h : r.Inv) (hlt : r.count.toNat < 2 ^ aw) {j : Nat} (hj : j < r.count.toNat) :
    (r.rdPtr.toNat + j) % 2 ^ aw ≠ r.wrPtr.toNat := by
  rw [h.2.2]
  intro e
  have hmod : r.rdPtr.toNat + r.count.toNat ≡ r.rdPtr.toNat + j [MOD 2 ^ aw] := e.symm
  have hcancel := Nat.ModEq.add_left_cancel' _ hmod
  unfold Nat.ModEq at hcancel
  rw [Nat.mod_eq_of_lt hlt, Nat.mod_eq_of_lt (by omega)] at hcancel
  omega

/-- The contents after an edge in which each port acts only where it may: the byte joins at the tail, then the head
byte leaves. -/
theorem contentsOf_portEdge (h : r.Inv) (d : Byte) (hw : wa = true → r.count.toNat ≠ 2 ^ aw)
    (hr : ra = true → r.count.toNat ≠ 0) :
    contentsOf (portEdge wa ra d r) = (contentsOf r ++ (if wa then [d] else [])).drop (if ra then 1 else 0) := by
  have hcnt := portEdge_count_toNat (ra := ra) h d hw
  have hinv := h
  obtain ⟨hm, hc, hp⟩ := h
  have hrd : ∀ k, ((portEdge wa ra d r).rdPtr.toNat + k) % 2 ^ aw =
      (r.rdPtr.toNat + (k + if ra then 1 else 0)) % 2 ^ aw := by
    intro k
    cases ra with
    | false => simp
    | true =>
      simp only [portEdge_rdPtr, if_true, nextIndex_toNat, Nat.mod_add_mod]
      congr 1
      omega
  apply List.ext_getElem?
  intro k
  rw [portEdge_count] at hcnt
  simp only [contentsOf, List.getElem?_map, List.getElem?_drop, List.getElem?_append, List.length_map,
    List.length_range, portEdge_count, hcnt, hrd, readCell_portEdge hinv]
  rw [Nat.add_comm _ k]
  have hz : (if ra = true then 1 else 0) = 0 ∨ (if ra = true then 1 else 0) = 1 ∧ r.count.toNat ≠ 0 := by
    cases ra with
    | false => exact .inl rfl
    | true => exact .inr ⟨rfl, hr rfl⟩
  generalize (if ra = true then 1 else 0) = z at *
  by_cases hk : k + z < r.count.toNat
  · rw [if_pos hk, List.getElem?_range (by omega), List.getElem?_range hk]
    cases wa with
    | false => simp
    | true =>
      have hne := storedIndex_ne_tail hinv (by have := hw rfl; omega) hk
      simp [hne]
  · rw [if_neg hk]
    cases wa with
    | false =>
      rw [List.getElem?_eq_none (by simp; omega)]
      simp
    | true =>
      by_cases hk2 : k + z = r.count.toNat
      · rw [List.getElem?_range (by simp; omega), hk2]
        simp [hk2, ← hp]
      · rw [List.getElem?_eq_none (by simp; omega), List.getElem?_eq_none (by simp; omega)]
        rfl

end Edge

end Sys2Proof.Machine
end

