-- ==== Sys2Proof/Laws/Decode.lean ====
section
/-! SUPPORT. The fields of a packed word, one lemma per field. -/

namespace Sys2Proof

@[simp] theorem rstBit_packWord (rst rd wr : Bool) (d : Byte) : rstBit (packWord rst rd wr d) = rst := by
  revert rst rd wr d; decide

@[simp] theorem rdBit_packWord (rst rd wr : Bool) (d : Byte) : rdBit (packWord rst rd wr d) = rd := by
  revert rst rd wr d; decide

@[simp] theorem wrBit_packWord (rst rd wr : Bool) (d : Byte) : wrBit (packWord rst rd wr d) = wr := by
  revert rst rd wr d; decide

@[simp] theorem dataField_packWord (rst rd wr : Bool) (d : Byte) : dataField (packWord rst rd wr d) = d := by
  revert rst rd wr d; decide

/-- The ports' values are read back from their word. -/
@[simp] theorem Input.ofWord_word (i : Input) : Input.ofWord i.word = i := by
  cases i
  simp [Input.ofWord, Input.word]

end Sys2Proof
end

