-- ==== Sys2Proof/Laws/PerInstr.lean ====
section
/-! SUPPORT. A statement per command: its canonical word selects its own row of the opcode table and no other
(30_encoding.md R62, R64). -/

namespace Sys2Proof.Laws.TableRow

/-- The canonical word of `i` selects exactly the row with `i`'s mnemonic. -/
def Statement (i : Instr) : Prop := ∀ row ∈ opcodeTable, row.selects (encode i) = (row.mnemonic == i.mnemonic)

theorem nop : Statement .nop := by unfold Statement; decide

theorem enq (d : Byte) : Statement (.enq d) := by revert d; unfold Statement; decide

theorem deq : Statement .deq := by unfold Statement; decide

theorem enqdeq (d : Byte) : Statement (.enqdeq d) := by revert d; unfold Statement; decide

theorem rst : Statement .rst := by unfold Statement; decide

end Sys2Proof.Laws.TableRow
end

