-- ==== Sys2Proof/Tests/Slice0.lean ====
section
/-! SUPPORT. Tests on the vectors of 95_test_vectors.md and the words of 30_encoding.md, the smoke test of the
well-formedness checks, and one witness for the hypotheses of each statement. -/

namespace Sys2Proof.Tests

open Sys2Proof Sys2Proof.Machine

-- The start states of 95_test_vectors.md section 2.2 (C = 4).

def cfg4 : Config := ⟨2, by decide⟩

def regs4 (n w r : Nat) (mem : List Host.Cell) : Regs 2 :=
  { mem := mem, wrPtr := BitVec.ofNat 2 w, rdPtr := BitVec.ofNat 2 r, count := BitVec.ofNat 3 n }

def with4 (r : Regs 2) : State := { State.resetFor cfg4 with block := .live r }

def rE0 : Regs 2 := regs4 0 0 0 []
def rA1 : Regs 2 := regs4 1 1 0 [(0, 0x41)]
def rM2 : Regs 2 := regs4 2 3 1 [(1, 0x41), (2, 0x42)]
def rW3 : Regs 2 := regs4 3 0 1 [(0, 0x10), (1, 0x20), (2, 0x30), (3, 0x40)]
def rF4 : Regs 2 := regs4 4 2 2 [(0, 0x03), (1, 0x04), (2, 0x01), (3, 0x02)]
def rH1 : Regs 2 := regs4 1 0 3 [(0, 0x55), (1, 0x66), (2, 0x77), (3, 0x99)]
def rZ0 : Regs 2 := regs4 0 2 2 [(0, 0x11), (1, 0x22), (2, 0x33), (3, 0x44)]

/-- What a vector lists of one cycle: `wr_ack`, `rd_ack`, `rd_data`, `count_o`, `full`, `empty`, then the count, the
write index, the read index and the listed cells after it. -/
structure Shown where
  wrAck : Bool
  rdAck : Bool
  rdData : Nat
  countO : Nat
  full : Bool
  empty : Bool
  n : Nat
  w : Nat
  r : Nat
  mem : List Host.Cell
  deriving DecidableEq, Repr

def shownRegs {aw : Nat} (o : Output aw) (r : Regs aw) : Shown :=
  ⟨o.wrAck, o.rdAck, o.rdData.toNat, o.countO.toNat, o.full, o.empty, r.count.toNat, r.wrPtr.toNat, r.rdPtr.toNat, r.mem⟩

def shownState (t : State) : Option Shown :=
  match t.block with
  | .unreset => none
  | .live r => some (shownRegs t.out r)

/-- One step from `s` with the word `w` on the ports. -/
def shown (s : State) (w : CmdWord) : Option Shown :=
  match step (presentWord s w) with
  | .next t => shownState t
  | .fault _ => none
  | .refused _ => none

def faultOf (o : Host.Outcome State Fault Refusal) : Option Fault :=
  match o with
  | .next _ => none
  | .fault f => some f
  | .refused _ => none

def resultOf {α : Type} (o : Host.Outcome (Finished α) Fault Refusal) : Option (α × Nat × Option Shown) :=
  match o with
  | .next f => some (f.result, f.cycles, shownState f.state)
  | .fault _ => none
  | .refused _ => none

-- Decoding: words written out from the pattern `R P W DDDDDDDD` of 30_encoding.md R60 and R62 (95 section 2.1).

theorem test_decode_nop : decode 0b0_0_0_10100101 = .nop := by decide
theorem test_decode_enq : decode 0b0_0_1_01000001 = .enq 0x41 := by decide
theorem test_decode_deq : decode 0b0_1_0_11111111 = .deq := by decide
theorem test_decode_enqdeq : decode 0b0_1_1_01000011 = .enqdeq 0x43 := by decide
theorem test_decode_rst : decode 0b1_1_1_11111111 = .rst ∧ decode 0b1_0_1_11111111 = .rst := by decide
theorem test_table_word : decodeTableWord 16 0x3FF = some (.enqdeq 0xFF) ∧ decodeTableWord 16 0x800 = none := by decide
theorem test_decode_number_refuses : decodeNumber 0x800 = .error (.notElevenBits 0x800) := by rfl

-- The checks refuse ill-formed terms (R7, R68).

theorem test_wf_refuses_enq_256 : (AsmCommand.enq 256).wf = false := by decide
theorem test_wf_refuses_enqdeq_300 : (AsmCommand.enqdeq 300).wf = false := by decide
theorem test_wf_accepts_255 : (AsmCommand.enq 255).wf = true ∧ (AsmCommand.enqdeq 0).wf = true := by decide
theorem test_capacity_refused : capacityOk 0 = false ∧ capacityOk 1 = false ∧ capacityOk 3 = false ∧ capacityOk 6 = false := by
  decide
theorem test_capacity_accepted : capacityOk 2 = true ∧ capacityOk 4 = true ∧ capacityOk 256 = true := by decide
theorem test_capacity_built : Config.ofCapacity 256 = .ok Config.reference := by rfl
theorem test_cells_refused :
    Memory.wf 4 [(1, 0x41), (0, 0x42)] = false ∧ Memory.wf 4 [(4, 0x41)] = false ∧ Memory.wf 4 [(0, 0x00)] = false := by
  decide

-- One-cycle vectors (95 section 2.3).

/-- T-NOP-1. -/
theorem test_nop_full : shown (with4 rF4) 0x000 = some (shownRegs ⟨false, false, 0, 4, true, false⟩ rF4) := by decide
/-- T-ENQ-3: the write index wraps. -/
theorem test_enq_wraps : shown (with4 rM2) 0x1FF =
    some ⟨true, false, 0, 2, false, false, 3, 0, 1, [(1, 0x41), (2, 0x42), (3, 0xFF)]⟩ := by decide
/-- T-ENQ-5: a full FIFO drops the byte. -/
theorem test_enq_rejected : shown (with4 rF4) 0x105 = some (shownRegs ⟨false, false, 0, 4, true, false⟩ rF4) := by decide
/-- T-DEQ-2: the read index wraps; the stale cell stays. -/
theorem test_deq_wraps : shown (with4 rH1) 0x200 =
    some ⟨false, true, 0x99, 1, false, false, 0, 0, 0, rH1.mem⟩ := by decide
/-- T-DEQ-5: the stale byte at the read index is not shown. -/
theorem test_deq_rejected : shown (with4 rZ0) 0x200 = some (shownRegs ⟨false, false, 0, 0, false, true⟩ rZ0) := by decide
/-- T-ED-1: no bypass at count 0. -/
theorem test_enqdeq_empty : shown (with4 rE0) 0x3AA =
    some ⟨true, false, 0, 0, false, true, 1, 1, 0, [(0, 0xAA)]⟩ := by decide
/-- T-ED-5: the byte is dropped at count C although a cell is freed. -/
theorem test_enqdeq_full : shown (with4 rF4) 0x305 =
    some ⟨false, true, 0x01, 4, true, false, 3, 2, 3, rF4.mem⟩ := by decide
/-- T-RST-2: the word 0x7FF, both ports requesting; the occupancy shown is the pre-edge one. -/
theorem test_rst_with_requests : shown (with4 rM2) 0x7FF =
    some ⟨false, false, 0, 2, false, false, 0, 0, 0, []⟩ := by decide
/-- T-RST-4: ENQ in state Unreset. -/
theorem test_enq_before_reset : faultOf (step (presentWord (State.powerOn cfg4) 0x141)) = some .usedBeforeReset := by decide
/-- T-ENQ-2: the byte 0x00 is stored like any other, and the storage stays canonical. -/
theorem test_enq_zero_byte : shown (with4 rA1) 0x100 =
    some ⟨true, false, 0, 1, false, false, 2, 2, 0, [(0, 0x41)]⟩ := by decide

-- LENGTH, transactions and assembler (95 sections 2.4 and 2.5; 30 R68, R71).

/-- T-LEN-2: the full count of the reference configuration needs nine bits. -/
theorem test_length_full_256 :
    (occupancyOf ({ mem := [], wrPtr := 0, rdPtr := 0, count := 0x100 } : Regs 8)) = ⟨0x100, true, false⟩ := by decide
/-- T-ENQN-2: six bytes into an empty FIFO of four cells. -/
theorem test_enqn_overflow : resultOf (enqn (fun _ => ⟨false, .idle⟩) [1, 2, 3, 4, 5, 6] (with4 rE0)) =
    some (4, 5, some ⟨false, false, 0, 4, true, false, 4, 0, 0, [(0, 1), (1, 2), (2, 3), (3, 4)]⟩) := by decide
/-- T-ENQN-5: the consumer reads in every cycle. -/
theorem test_enqn_with_reads :
    (resultOf (enqn (fun _ => ⟨false, .dequeue⟩) [0xA0, 0xA1, 0xA2, 0xA3] (with4 rM2))).map (fun x => (x.1, x.2.1)) =
      some (4, 4) := by decide
/-- T-DEQN-2. -/
theorem test_deqn_drains : (resultOf (deqn (fun _ => ⟨false, .idle⟩) 6 (with4 rF4))).map (fun x => (x.1, x.2.1)) =
    some ([1, 2, 3, 4], 5) := by decide
/-- R71 through the assembler: `enq 0x41 ; c`. -/
theorem test_assemble_enq :
    assemble [['e', 'n', 'q', ' ', ' ', '0', 'x', '4', '1', ' ', ';', ' ', 'c']] = .ok [0x141] := by rfl
/-- R68: a decimal immediate, a quoted `;`, and a value outside 0 .. 255. -/
theorem test_assemble_immediates :
    parseLine ['E', 'N', 'Q', ' ', '6', '5'] = .ok (some (.enq 0x41)) ∧
      parseLine (['E', 'N', 'Q', ' '] ++ [quoteChar, commentChar, quoteChar]) = .ok (some (.enq 0x3B)) ∧
      parseLine ['E', 'N', 'Q', ' ', '2', '5', '6'] = .error (.notAByte 256) := ⟨rfl, rfl, rfl⟩
/-- X3's sizes at C = 4: the contents of M2, oldest first (95 section 2.2). -/
theorem test_contents_M2 : contentsOf rM2 = [0x41, 0x42] ∧ contentsOf rF4 = [1, 2, 3, 4] ∧ contentsOf rZ0 = [] := by decide

-- Witnesses: for each statement with hypotheses, a concrete state and operands that meet them together; for a statement
-- with several clauses, at the boundary of each.

theorem inv_E0 : rE0.Inv := ⟨by decide, by decide, by decide⟩
theorem inv_A1 : rA1.Inv := ⟨by decide, by decide, by decide⟩
theorem inv_M2 : rM2.Inv := ⟨by decide, by decide, by decide⟩
theorem inv_W3 : rW3.Inv := ⟨by decide, by decide, by decide⟩
theorem inv_F4 : rF4.Inv := ⟨by decide, by decide, by decide⟩
theorem inv_H1 : rH1.Inv := ⟨by decide, by decide, by decide⟩
theorem inv_Z0 : rZ0.Inv := ⟨by decide, by decide, by decide⟩

theorem live4 (r : Regs 2) : (with4 r).block = .live r := rfl

/-- The block's invariant as an invariant of the machine. -/
theorem state_inv4 {r : Regs 2} (h : r.Inv) : (with4 r).Inv := by
  intro r' hr
  injection hr with hr
  exact hr ▸ h

theorem test_witness_AssemblerReadsItsText : 256 ≤ 256 := Nat.le_refl _
theorem test_witness_IgnoredBitsHaveNoMeaning :
    (0x0FF : CmdWord) &&& 0x700 = 0x000 ∧ (0x1FF : CmdWord) &&& 0x700 = 0x100 ∧ (0x2FF : CmdWord) &&& 0x700 = 0x200 ∧
      (0x3FF : CmdWord) &&& 0x700 = 0x300 ∧ (0x7FF : CmdWord) &&& 0x400 = 0x400 := by decide
theorem test_witness_CapacityIsAPowerOfTwo : capacityOk 2 = true ∧ capacityOk 3 = false ∧ capacityOk 1 = false := by decide
theorem test_witness_StepRunsTheDecodedCommand :
    (presentWord (with4 rM2) 0x141).inputs = 0x141 :: [] ∧ (with4 rM2).inputs = [] ∧
      decodeTableWord 16 0x141 = some (.enq 0x41) := ⟨rfl, rfl, by decide⟩
theorem test_witness_RstResult :
    (0x7FF : CmdWord) &&& 0x400 = 0x400 ∧ (with4 rF4).block = .live rF4 ∧ (with4 rE0).block = .live rE0 :=
  ⟨by decide, rfl, rfl⟩
theorem test_witness_RstCorners : (Input.ofWord 0x7FF).rst = true ∧ (State.powerOn cfg4).block = .unreset :=
  ⟨by decide, rfl⟩
theorem test_witness_BeforeTheFirstReset :
    (State.powerOn cfg4).block = .unreset ∧ Instr.nop ≠ .rst ∧
      ∃ t, (presentWord (State.powerOn cfg4) 0x400).block = .unreset ∧ step (presentWord (State.powerOn cfg4) 0x400) = .next t :=
  ⟨rfl, by decide, _, rfl, rfl⟩
theorem test_witness_BeforeTheFirstReset_powerLoss : (State.powerLoss (with4 rM2)).block = .unreset := rfl
theorem test_witness_LiveBlockNeverStops : State.reset.isLive = true := by decide
theorem test_witness_NopResult :
    (with4 rF4).block = .live rF4 ∧ ([0x000, 0x0A5] : List CmdWord) ≠ [] ∧
      ∀ w ∈ ([0x000, 0x0A5] : List CmdWord), w &&& 0x700 = 0x000 := ⟨rfl, by decide, by decide⟩
theorem test_witness_EnqResult :
    (0x141 : CmdWord) &&& 0x700 = 0x100 ∧ (with4 rE0).block = .live rE0 ∧ rE0.Inv ∧ rE0.count.toNat < 2 ^ 2 :=
  ⟨by decide, rfl, inv_E0, by decide⟩
theorem test_witness_EnqResult_lastCell : (with4 rW3).block = .live rW3 ∧ rW3.Inv ∧ rW3.count.toNat = 2 ^ 2 - 1 :=
  ⟨rfl, inv_W3, by decide⟩
theorem test_witness_EnqResult_full : (with4 rF4).block = .live rF4 ∧ rF4.count.toNat = 2 ^ 2 ∧ rF4.Inv :=
  ⟨rfl, by decide, inv_F4⟩
theorem test_witness_TailCellHoldsNoStoredByte :
    (with4 rW3).block = .live rW3 ∧ rW3.Inv ∧ rW3.count.toNat < 2 ^ 2 ∧ 2 < rW3.count.toNat :=
  ⟨rfl, inv_W3, by decide, by decide⟩
theorem test_witness_DeqResult :
    (0x2FF : CmdWord) &&& 0x700 = 0x200 ∧ (with4 rA1).block = .live rA1 ∧ rA1.count.toNat = 1 ∧ rA1.Inv ∧
      (with4 rF4).block = .live rF4 ∧ rF4.count.toNat = 4 := ⟨by decide, rfl, by decide, inv_A1, rfl, by decide⟩
theorem test_witness_DeqResult_empty : (with4 rZ0).block = .live rZ0 ∧ rZ0.count.toNat = 0 := ⟨rfl, by decide⟩
theorem test_witness_EnqdeqResult :
    (0x343 : CmdWord) &&& 0x700 = 0x300 ∧ (with4 rM2).block = .live rM2 ∧ rM2.Inv ∧
      true = decide (rM2.count.toNat ≠ 2 ^ 2) ∧ true = decide (rM2.count.toNat ≠ 0) :=
  ⟨by decide, rfl, inv_M2, by decide, by decide⟩
theorem test_witness_EnqdeqResult_full :
    (with4 rF4).block = .live rF4 ∧ rF4.Inv ∧ false = decide (rF4.count.toNat ≠ 2 ^ 2) ∧
      true = decide (rF4.count.toNat ≠ 0) := ⟨rfl, inv_F4, by decide, by decide⟩
theorem test_witness_EnqdeqAtEachOccupancy :
    (rE0.Inv ∧ rE0.count.toNat = 0) ∧ (rA1.Inv ∧ 1 ≤ rA1.count.toNat ∧ rA1.count.toNat ≤ 2 ^ 2 - 1) ∧
      (rW3.Inv ∧ rW3.count.toNat = 2 ^ 2 - 1) ∧ (rF4.Inv ∧ rF4.count.toNat = 2 ^ 2) :=
  ⟨⟨inv_E0, by decide⟩, ⟨inv_A1, by decide, by decide⟩, ⟨inv_W3, by decide⟩, inv_F4, by decide⟩
theorem test_witness_NoSameCellAccess :
    ∃ t t', (with4 rM2).block = .live rM2 ∧ rM2.Inv ∧ exec (.enqdeq 0x43) (with4 rM2) = .next t ∧
      t.out.wrAck = true ∧ t.out.rdAck = true ∧ exec (.enqdeq 0x44) (with4 rM2) = .next t' :=
  ⟨_, _, rfl, inv_M2, rfl, rfl, rfl, rfl⟩
theorem test_witness_CommandFrame :
    ∃ t, Instr.enqdeq 5 ≠ .rst ∧ (with4 rF4).block = .live rF4 ∧ exec (.enqdeq 5) (with4 rF4) = .next t ∧
      t.out.wrAck = false ∧ t.out.rdAck = true := ⟨_, by decide, rfl, rfl, rfl, rfl⟩
theorem test_witness_CommandFrame_idlePorts :
    ∃ t, (with4 rZ0).block = .live rZ0 ∧ exec .deq (with4 rZ0) = .next t ∧ t.out.wrAck = false ∧ t.out.rdAck = false :=
  ⟨_, rfl, rfl, rfl, rfl⟩
theorem test_witness_CommandsAreCasesOfTheCycle : (with4 rM2).block = .live rM2 := rfl
theorem test_witness_PortsAreIndependent : (with4 rF4).block = .live rF4 ∧ (with4 rE0).block = .live rE0 := ⟨rfl, rfl⟩
theorem test_witness_CountCountsTheAcks :
    (with4 rM2).block = .live rM2 ∧ rM2.Inv ∧ (Input.ofWord 0x343).rst = false := ⟨rfl, inv_M2, by decide⟩

/-- The acks of one cycle with the word `w`. -/
def acks (r : Regs 2) (w : CmdWord) : Option (Bool × Bool) :=
  match driveCycle (Input.ofWord w) (with4 r) with
  | .next t => some (t.out.wrAck, t.out.rdAck)
  | .fault _ => none
  | .refused _ => none

theorem test_witness_ContentsLaws :
    rZ0.Inv ∧ rE0.Inv ∧ rF4.Inv ∧ rM2.Inv ∧ (Input.ofWord 0x7FF).rst = true ∧ (Input.ofWord 0x3BB).rst = false ∧
      acks rZ0 0x000 = some (false, false) ∧ acks rE0 0x3BB = some (true, false) ∧ acks rF4 0x3BB = some (false, true) ∧
      acks rM2 0x3BB = some (true, true) :=
  ⟨inv_Z0, inv_E0, inv_F4, inv_M2, by decide, by decide, by decide, by decide, by decide, by decide⟩
theorem test_witness_CycleSerialises :
    (rE0.Inv ∧ rE0.count.toNat ≠ 2 ^ 2) ∧ (rF4.Inv ∧ rF4.count.toNat ≠ 0) ∧ (Input.ofWord 0x3BB).rst = false :=
  ⟨⟨inv_E0, by decide⟩, ⟨inv_F4, by decide⟩, by decide⟩
theorem test_witness_InvariantIsKept :
    ∃ t t', (presentWord (with4 rM2) 0x343).Inv ∧ step (presentWord (with4 rM2) 0x343) = .next t ∧
      exec .rst (State.powerOn cfg4) = .next t' ∧ (with4 rM2).Inv ∧ (with4 rM2).block = .live rM2 :=
  ⟨_, _, state_inv4 inv_M2, rfl, rfl, state_inv4 inv_M2, rfl⟩
theorem test_witness_IndexEqualityIsEmptyOrFull : rE0.Inv ∧ rF4.Inv ∧ rA1.Inv ∧ rW3.Inv := ⟨inv_E0, inv_F4, inv_A1, inv_W3⟩
theorem test_witness_FlagsFollowTheCount : (with4 rF4).block = .live rF4 := rfl
theorem test_witness_MaskedIncrement :
    (3 : BitVec 2).toNat = 2 ^ 2 - 1 ∧ Instr.enq 1 ≠ .rst ∧ (with4 rM2).block = .live rM2 := ⟨by decide, by decide, rfl⟩
theorem test_witness_NoSameCycleBypass :
    ((with4 rE0).block = .live rE0 ∧ rE0.Inv ∧ rE0.count.toNat = 0) ∧
      (with4 rF4).block = .live rF4 ∧ rF4.Inv ∧ rF4.count.toNat = 2 ^ 2 :=
  ⟨⟨rfl, inv_E0, by decide⟩, rfl, inv_F4, by decide⟩
theorem test_witness_OccupancyLagsOneCycle :
    ∃ t, (with4 rF4).block = .live rF4 ∧ rF4.Inv ∧ exec .deq (with4 rF4) = .next t := ⟨_, rfl, inv_F4, rfl⟩
theorem test_witness_SampledCountIsASafeBound :
    (with4 rW3).block = .live rW3 ∧ rW3.Inv ∧ (Input.ofWord 0x000).rst = false ∧ (Input.ofWord 0x350).rst = false ∧
      (Input.ofWord 0x000).wrEn = false ∧ (Input.ofWord 0x000).rdEn = false ∧ (Input.ofWord 0x350).wrEn = true ∧
      (Input.ofWord 0x350).rdEn = true ∧ (lengthOf (with4 rW3)).full = false ∧ (lengthOf (with4 rW3)).empty = false :=
  ⟨rfl, inv_W3, by decide, by decide, by decide, by decide, by decide, by decide, by decide, by decide⟩
theorem test_witness_StatusCodes :
    ∃ t, (with4 rF4).block = .live rF4 ∧ driveCycle (Input.ofWord 0x305) (with4 rF4) = .next t ∧
      (Input.ofWord 0x305).wrEn = true ∧ (Input.ofWord 0x305).rst = false ∧ rF4.count.toNat = 2 ^ 2 ∧
      (Input.ofWord 0x305).rdEn = true ∧ rF4.count.toNat ≠ 0 :=
  ⟨_, rfl, rfl, by decide, by decide, by decide, by decide, by decide⟩
theorem test_witness_StatusCodes_empty :
    ∃ t, (with4 rE0).block = .live rE0 ∧ driveCycle (Input.ofWord 0x3AA) (with4 rE0) = .next t ∧
      rE0.count.toNat ≠ 2 ^ 2 ∧ rE0.count.toNat = 0 ∧ (Input.ofWord 0x000).wrEn = false := ⟨_, rfl, rfl, by decide, by decide, by decide⟩
theorem test_witness_DeqTakesTheNextByte :
    (with4 rM2).block = .live rM2 ∧ rM2.Inv ∧ contentsOf rM2 = 0x41 :: 0x42 :: [] := ⟨rfl, inv_M2, by decide⟩
theorem test_witness_FifoHistoryIsKept :
    ∃ t, (presentWord (with4 rM2) 0x343).block = .live rM2 ∧ rM2.Inv ∧
      (History.mk [0x41, 0x42] []).written = (History.mk [0x41, 0x42] []).returned ++ contentsOf rM2 ∧
      step (presentWord (with4 rM2) 0x343) = .next t := ⟨_, rfl, inv_M2, by decide, rfl⟩
theorem test_witness_FifoLaw : rstBit (fetchWord (presentWord (State.powerOn cfg4) 0x400)) = true := by decide
theorem test_witness_OccupancyLaw : rstBit (fetchWord (presentWord (with4 rM2) 0x7FF)) = true := by decide

def quietConsumer : Nat → ConsumerSide := fun _ => ⟨false, .idle⟩
def quietProducer : Nat → ProducerSide := fun _ => ⟨false, .idle⟩

theorem test_witness_EnqnStoresWhatFits :
    (∀ t, quietConsumer t = ⟨false, .idle⟩) ∧ (with4 rM2).block = .live rM2 ∧ rM2.Inv ∧
      2 = min ([1, 2, 3] : List Byte).length (2 ^ 2 - rM2.count.toNat) := ⟨fun _ => rfl, rfl, inv_M2, by decide⟩
theorem test_witness_EnqnBounds :
    (with4 rM2).block = .live rM2 ∧ rM2.Inv ∧ ∀ t, (quietConsumer t).rst = false := ⟨rfl, inv_M2, fun _ => rfl⟩
theorem test_witness_DeqnReturnsWhatIsStored :
    (∀ t, quietProducer t = ⟨false, .idle⟩) ∧ (with4 rF4).block = .live rF4 ∧ rF4.Inv ∧ 4 = min 6 rF4.count.toNat :=
  ⟨fun _ => rfl, rfl, inv_F4, by decide⟩
theorem test_witness_DeqnBounds :
    (with4 rF4).block = .live rF4 ∧ rF4.Inv ∧ ∀ t, (quietProducer t).rst = false := ⟨rfl, inv_F4, fun _ => rfl⟩
theorem test_witness_CapacityBoundary :
    (∀ t, quietConsumer t = ⟨false, .idle⟩) ∧ (with4 rE0).block = .live rE0 ∧ rE0.Inv ∧ rE0.count.toNat = 0 ∧
      2 ^ 2 < ([1, 2, 3, 4, 5] : List Byte).length := ⟨fun _ => rfl, rfl, inv_E0, by decide, by decide⟩
theorem test_witness_RoundTrip :
    (∀ t, quietConsumer t = ⟨false, .idle⟩) ∧ (∀ t, quietProducer t = ⟨false, .idle⟩) ∧
      (with4 rZ0).block = .live rZ0 ∧ rZ0.Inv ∧ rZ0.count.toNat = 0 ∧ ([0x41, 0x42, 0x43] : List Byte).length ≤ 2 ^ 2 ∧ 0 < 1 :=
  ⟨fun _ => rfl, fun _ => rfl, rfl, inv_Z0, by decide, by decide, by decide⟩
theorem test_witness_ResetStopsTransactions :
    (with4 rM2).block = .live rM2 ∧ ((fun t => ⟨t == 1, .idle⟩ : Nat → ConsumerSide) 1).rst = true ∧
      ((fun t => ⟨t == 1, .idle⟩ : Nat → ProducerSide) 1).rst = true := ⟨rfl, by decide, by decide⟩
theorem test_witness_PutbEndsWhenRoomIsMade :
    (with4 rM2).block = .live rM2 ∧ rM2.Inv ∧ rM2.count.toNat < 2 ^ 2 ∧ (with4 rF4).block = .live rF4 ∧ rF4.Inv ∧
      rF4.count.toNat = 2 ^ 2 ∧
      (∀ t, t < 2 → (fun t => ⟨false, if t = 2 then .dequeue else .idle⟩ : Nat → ConsumerSide) t = ⟨false, .idle⟩) ∧
      (fun t => ⟨false, if t = 2 then .dequeue else .idle⟩ : Nat → ConsumerSide) 2 = ⟨false, .dequeue⟩ :=
  ⟨rfl, inv_M2, by decide, rfl, inv_F4, by decide, by decide, by decide⟩
theorem test_witness_GetbEndsWhenAByteComes :
    (with4 rM2).block = .live rM2 ∧ rM2.Inv ∧ rM2.count.toNat ≠ 0 ∧ (with4 rZ0).block = .live rZ0 ∧ rZ0.Inv ∧
      rZ0.count.toNat = 0 ∧
      (∀ t, t < 2 → (fun t => ⟨false, if t = 2 then .enqueue 7 else .idle⟩ : Nat → ProducerSide) t = ⟨false, .idle⟩) ∧
      (fun t => ⟨false, if t = 2 then .enqueue 7 else .idle⟩ : Nat → ProducerSide) 2 = ⟨false, .enqueue 7⟩ :=
  ⟨rfl, inv_M2, by decide, rfl, inv_Z0, by decide, by decide, by decide⟩
theorem test_witness_EmptyAndIdleTransactions :
    (∀ t, quietConsumer t = ⟨false, .idle⟩) ∧ (∀ t, quietProducer t = ⟨false, .idle⟩) ∧ (with4 rM2).block = .live rM2 :=
  ⟨fun _ => rfl, fun _ => rfl, rfl⟩
theorem test_witness_PairSharesNothing :
    ∃ q q', stepTx ⟨presentWord (with4 rM2) 0x141, presentWord (with4 rF4) 0x200⟩ = .next q ∧ stepRx q = .next q' :=
  ⟨_, _, rfl, rfl⟩

end Sys2Proof.Tests
end

section
/-! PROOFS. The capacities of the block (00_scope.md R7, D2): `Config.ofCapacity` inverts `Config.capacity`, and
`capacityOk` accepts exactly the capacities of configurations. -/

namespace Sys2Proof

/-- The capacities accepted are 2^AW with AW >= 1 (R7, D2). -/
theorem capacityOk_iff_exists_two_pow {c : Nat} : capacityOk c = true ↔ ∃ aw, 1 ≤ aw ∧ c = 2 ^ aw := by
  simp only [capacityOk, Bool.and_eq_true, decide_eq_true_eq]
  constructor
  · rintro ⟨hpow, htwo⟩
    have hlog : 1 ≤ Nat.log2 c := (Nat.le_log2 (by omega)).mpr htwo
    exact ⟨Nat.log2 c, hlog, hpow⟩
  · rintro ⟨aw, haw, rfl⟩
    exact ⟨by rw [Nat.log2_two_pow], Nat.le_self_pow (Nat.ne_of_gt haw) 2⟩

theorem Config.capacityOk_capacity (cfg : Config) : capacityOk cfg.capacity = true :=
  capacityOk_iff_exists_two_pow.mpr ⟨cfg.aw, cfg.aw_pos, rfl⟩

/-- A configuration is built from its own capacity. -/
theorem Config.ofCapacity_capacity (cfg : Config) : Config.ofCapacity cfg.capacity = .ok cfg := by
  simp [Config.ofCapacity, Config.capacity, Nat.log2_two_pow, cfg.aw_pos]

/-- A configuration built for `c` has the capacity `c`. -/
theorem Config.capacity_of_ofCapacity {c : Nat} {cfg : Config} (h : Config.ofCapacity c = .ok cfg) :
    cfg.capacity = c := by
  unfold Config.ofCapacity at h
  split at h
  next hpow =>
    split at h
    next hlog => cases h; exact hpow.symm
    next => cases h
  next => cases h

/-- Settles O8: the accepted capacities are those of the configurations, and `Config.ofCapacity` inverts
`Config.capacity`, so it builds each accepted capacity and can build no other. -/
theorem capacityIsAPowerOfTwo : Obligations.CapacityIsAPowerOfTwo := by
  intro c
  refine ⟨capacityOk_iff_exists_two_pow.symm, fun hok => ?_, fun hno => ?_⟩
  · obtain ⟨aw, haw, rfl⟩ := capacityOk_iff_exists_two_pow.mp hok
    exact ⟨⟨aw, haw⟩, Config.ofCapacity_capacity ⟨aw, haw⟩, rfl⟩
  · cases hbuild : Config.ofCapacity c with
    | error e => exact ⟨e, rfl⟩
    | ok cfg =>
      have hok : capacityOk c = true := Config.capacity_of_ofCapacity hbuild ▸ cfg.capacityOk_capacity
      exact absurd hok (by simp [hno])

end Sys2Proof
end

section
/-! PROOFS. Where a step takes its command word from (00_scope.md R12, 10_state.md R30): the drivers' next word, a free
word, or a word placed on the ports. -/

namespace Sys2Proof.Machine

/-- A number the table decoder accepts is the 11-bit word the ports carry (R60, log entry 9). -/
theorem decode_of_decodeTableWord {nbits w : Nat} {i : Instr} (h : decodeTableWord nbits w = some i) :
    decode (BitVec.ofNat 11 w) = i := by
  unfold decodeTableWord decodeNumber at h
  split at h
  next j hj =>
    split at hj
    next => cases hj; cases h; rfl
    next => cases hj
  next => cases h

section Taken
variable {s : State}

theorem fetchWord_of_inputs_cons {w : CmdWord} {ws : List CmdWord} (h : s.inputs = w :: ws) : fetchWord s = w := by
  simp [fetchWord, h]

theorem consumeWord_of_inputs_cons {w : CmdWord} {ws : List CmdWord} (h : s.inputs = w :: ws) :
    consumeWord s = { s with inputs := ws } := by
  obtain ⟨cfg, block, out, inputs, wordDraws, outputDraws⟩ := s
  cases h
  rfl

theorem fetchWord_of_inputs_nil (h : s.inputs = []) : fetchWord s = Config.freeWord s.wordDraws := by
  simp [fetchWord, h]

theorem consumeWord_of_inputs_nil (h : s.inputs = []) :
    consumeWord s = { s with wordDraws := s.wordDraws + 1 } := by
  obtain ⟨cfg, block, out, inputs, wordDraws, outputDraws⟩ := s
  cases h
  rfl

@[simp] theorem consumeWord_withFetchWord (nbits w : Nat) :
    consumeWord (s.withFetchWord nbits w) = { s with inputs := s.inputs.tail } := rfl

end Taken

/-- Settles O9, from what is fetched and what is consumed in each of the three cases. -/
theorem stepRunsTheDecodedCommand : Obligations.StepRunsTheDecodedCommand := by
  refine ⟨fun s w ws h => ?scheduled, fun s h => ?free, fun s nbits w i h => ?placed⟩
  case scheduled => rw [step, fetchWord_of_inputs_cons h, consumeWord_of_inputs_cons h]
  case free => rw [step, fetchWord_of_inputs_nil h, consumeWord_of_inputs_nil h]
  case placed => rw [step, fetchWord_withFetchWord, consumeWord_withFetchWord, decode_of_decodeTableWord h]

end Sys2Proof.Machine
end

section
/-! PROOFS. The state and its observation (10_state.md R23 to R35): LENGTH and its flags, the values and the invariant
at reset, what a command leaves unchanged, and the pair of two blocks. -/

namespace Sys2Proof.Machine

-- LENGTH and its flags (R28, R29, R83).

/-- LENGTH on live registers observes those registers (R83). -/
theorem lengthOf_live {s : State} {r : Regs s.cfg.aw} (h : s.block = .live r) : lengthOf s = occupancyOf r := by
  simp [lengthOf, h]

section Flags
variable {aw : Nat} (r : Regs aw)

@[simp] theorem occupancyOf_countO : (occupancyOf r).countO = r.count := rfl
@[simp] theorem occupancyOf_full : (occupancyOf r).full = isFull r := rfl
@[simp] theorem occupancyOf_empty : (occupancyOf r).empty = isEmpty r := rfl

/-- No count is both 0 and C, because C is at least 1 (R28). -/
theorem not_isFull_and_isEmpty : ¬(isFull r = true ∧ isEmpty r = true) := by
  rw [isFull_iff, isEmpty_iff]
  rintro ⟨hfull, hempty⟩
  exact (Nat.two_pow_pos aw).ne (hempty.symm.trans hfull)

end Flags

/-- LENGTH right after reset: count 0, not full, empty (R33). -/
@[simp] theorem occupancyOf_reset (aw : Nat) :
    occupancyOf (Regs.reset aw) = { countO := 0, full := false, empty := true } := by
  have hC : 0 ≠ 2 ^ aw := (Nat.two_pow_pos aw).ne
  simp [occupancyOf, isFull, isEmpty, hC]

@[simp] theorem lengthOf_resetFor (cfg : Config) :
    lengthOf (State.resetFor cfg) = { countO := 0, full := false, empty := true } :=
  occupancyOf_reset cfg.aw

/-- Settles O32: LENGTH shows the flags of the registers, which exclude each other, and at reset the count is 0. -/
theorem flagsFollowTheCount : Obligations.FlagsFollowTheCount := by
  refine ⟨fun s r hb => ?live, fun cfg => ?reset⟩
  case live =>
    rw [lengthOf_live hb]
    exact ⟨rfl, rfl, not_isFull_and_isEmpty r⟩
  case reset => simp

/-- The occupancy outputs of a cycle are what LENGTH shows before it, whatever the command, a reset included
(R84 (a), R187). -/
theorem exec_out_occupancy {i : Instr} {s t : State} (h : exec i s = .next t) :
    t.out.countO.toNat = (lengthOf s).countO.toNat ∧ t.out.full = (lengthOf s).full ∧
      t.out.empty = (lengthOf s).empty := by
  obtain ⟨-, rfl⟩ | ⟨-, r, hb, rfl⟩ := exec_next h
  case inl => exact ⟨rfl, rfl, rfl⟩
  case inr =>
    rw [lengthOf_live hb]
    exact ⟨rfl, rfl, rfl⟩

/-- Settles O35: the cycle's occupancy outputs are LENGTH's, and LENGTH shows the pre-edge registers, whose count the
invariant bounds. -/
theorem occupancyLagsOneCycle : Obligations.OccupancyLagsOneCycle := by
  intro i s t r hb hinv h
  obtain ⟨hcount, hfull, hempty⟩ := exec_out_occupancy h
  have hlen := lengthOf_live hb
  have hcountO : t.out.countO.toNat = r.count.toNat := by rw [hcount, hlen, occupancyOf_countO]
  obtain ⟨-, hle, -⟩ := hinv
  refine ⟨hcountO, hfull, hempty, by rw [hlen, occupancyOf_countO], hcountO ▸ hle, ?_⟩
  rw [hfull, hlen, occupancyOf_full, isFull_iff, hcountO]

-- The values and the invariant at reset (R23, R24, R33).

/-- R33's values of the reset registers, and what LENGTH observes of them. -/
theorem Regs.reset_values (aw : Nat) :
    (∀ a, readCell (Regs.reset aw).mem a = 0) ∧ (Regs.reset aw).wrPtr = 0 ∧ (Regs.reset aw).rdPtr = 0 ∧
      (Regs.reset aw).count = 0 ∧ occupancyOf (Regs.reset aw) = { countO := 0, full := false, empty := true } :=
  ⟨readCell_nil, rfl, rfl, rfl, occupancyOf_reset aw⟩

/-- Settles O10: RST, and the reset state of every build, hold the reset registers. -/
theorem resetValues : Obligations.ResetValues :=
  ⟨fun s => ⟨Regs.reset s.cfg.aw, resetOutputs s, drawsAfterReset s, exec_rst s, Regs.reset_values s.cfg.aw⟩,
    fun cfg => ⟨Regs.reset cfg.aw, State.resetFor_block cfg, Regs.reset_values cfg.aw⟩⟩

/-- A live machine meets the invariant when its registers do. -/
theorem State.inv_of_live {s : State} {r : Regs s.cfg.aw} (hb : s.block = .live r) (hinv : r.Inv) : s.Inv := by
  intro r' hb'
  obtain rfl : r = r' := Block.live.inj (hb.symm.trans hb')
  exact hinv

/-- Before the first reset the invariant says nothing (R182). -/
theorem State.inv_of_unreset {s : State} (hb : s.block = .unreset) : s.Inv := fun r hlive => by
  rw [hb] at hlive
  cases hlive

theorem State.resetFor_inv (cfg : Config) : (State.resetFor cfg).Inv :=
  State.inv_of_live (State.resetFor_block cfg) (Regs.reset_inv cfg.aw)

/-- Settles O30, from the reset registers' invariant and the power-on block being `Unreset`. -/
theorem resetMeetsTheInvariant : Obligations.ResetMeetsTheInvariant :=
  ⟨State.resetFor_inv Config.reference,
    fun cfg => ⟨State.resetFor_inv cfg, State.inv_of_unreset (State.powerOn_block cfg)⟩⟩

-- The indices at the two ends of the count (R25).

/-- Going `n` places round a ring of `c`, at most once round, ends where it began just for 0 and `c` places. -/
theorem add_mod_eq_self_iff {c p n : Nat} (hp : p < c) (hn : n ≤ c) : (p + n) % c = p ↔ n = 0 ∨ n = c := by
  by_cases hwrap : p + n < c
  · rw [Nat.mod_eq_of_lt hwrap]
    omega
  · rw [Nat.mod_eq_sub_mod (by omega), Nat.mod_eq_of_lt (by omega)]
    omega

/-- Settles O31: `wr_ptr` is `rd_ptr` moved on by the count, which is at most once round the ring. -/
theorem indexEqualityIsEmptyOrFull : Obligations.IndexEqualityIsEmptyOrFull := by
  rintro aw r ⟨-, hle, hptr⟩
  refine ⟨?_, isEmpty_iff r, isFull_iff r⟩
  rw [← BitVec.toNat_inj, hptr]
  exact add_mod_eq_self_iff r.rdPtr.isLt hle

-- What a command without reset leaves unchanged (R26, R82, R101, R121).

section Frame
variable {aw : Nat} (wa ra : Bool) (d : Byte) (r : Regs aw)

/-- An edge writes no cell but the tail one, whatever the registers (R101). -/
theorem readCell_portEdge_of_ne_tail {a : Nat} (ha : a ≠ r.wrPtr.toNat) :
    readCell (portEdge wa ra d r).mem a = readCell r.mem a := by
  cases wa with
  | false => rfl
  | true => exact readCell_writeCell_other ha d

@[simp] theorem nextCount_idle (n : BitVec (aw + 1)) : nextCount aw n false false = n := by simp [nextCount]

end Frame

/-- NOP and DEQ request no write. -/
theorem wantsWrite_of_nop_or_deq {aw : Nat} {i : Instr} (r : Regs aw) (h : i = .nop ∨ i = .deq) :
    wantsWrite i r = false := by
  obtain rfl | rfl := h <;> rfl

/-- NOP and ENQ request no read. -/
theorem wantsRead_of_nop_or_enq {aw : Nat} {i : Instr} (r : Regs aw) (h : i = .nop ∨ ∃ d, i = .enq d) :
    wantsRead i r = false := by
  obtain rfl | ⟨d, rfl⟩ := h <;> rfl

/-- Settles O23: the command is one edge, whose acks are the ports that act. -/
theorem commandFrame : Obligations.CommandFrame := by
  intro i s t r hi hb h
  obtain rfl : _ = t := Host.Outcome.next.inj ((exec_live hi hb).symm.trans h)
  refine ⟨_, _, rfl, fun hw => ?noWrite, fun hr => ?noRead, fun hw hr => ?noAck,
    fun a ha => readCell_portEdge_of_ne_tail _ _ _ r ha, wantsWrite_of_nop_or_deq r, wantsRead_of_nop_or_enq r⟩
  case noWrite =>
    rw [outputsOf_wrAck] at hw
    rw [hw]
    exact ⟨rfl, fun _ => rfl⟩
  case noRead =>
    rw [outputsOf_rdAck] at hr
    rw [hr]
    rfl
  case noAck =>
    rw [outputsOf_wrAck] at hw
    rw [outputsOf_rdAck] at hr
    rw [hw, hr, portEdge_count, nextCount_idle]

-- Two blocks (R35).

/-- A cycle of the transmit block is a step of that block alone. -/
theorem stepTx_next_iff {p q : BufferPair} :
    stepTx p = .next q ↔ ∃ s, step p.tx = .next s ∧ q = { p with tx := s } := by
  unfold stepTx
  cases step p.tx <;> simp [eq_comm]

/-- A cycle of the receive block is a step of that block alone. -/
theorem stepRx_next_iff {p q : BufferPair} :
    stepRx p = .next q ↔ ∃ s, step p.rx = .next s ∧ q = { p with rx := s } := by
  unfold stepRx
  cases step p.rx <;> simp [eq_comm]

/-- Settles O52: each block's step reads and writes that block alone, so two cycles of different blocks commute. -/
theorem pairSharesNothing : Obligations.PairSharesNothing := by
  refine ⟨fun p q q' htx hrx => ?commute, fun p q htx => ?tx, fun p q hrx => ?rx⟩
  case commute =>
    obtain ⟨s, hs, rfl⟩ := stepTx_next_iff.mp htx
    obtain ⟨u, hu, rfl⟩ := stepRx_next_iff.mp hrx
    exact ⟨{ p with rx := u }, stepRx_next_iff.mpr ⟨u, hu, rfl⟩, stepTx_next_iff.mpr ⟨s, hs, rfl⟩⟩
  case tx =>
    obtain ⟨s, hs, rfl⟩ := stepTx_next_iff.mp htx
    exact ⟨rfl, hs⟩
  case rx =>
    obtain ⟨s, hs, rfl⟩ := stepRx_next_iff.mp hrx
    exact ⟨rfl, hs⟩

end Sys2Proof.Machine
end

section
/-! PROOFS. The indices and the order of the bytes (20_memory.md R41, R47, R48, R50; 43_simultaneous.md R151): the
masked increment, the head byte as the first of the contents, a cycle read off the bits of its word, and the FIFO law
as an invariant of every step. -/

namespace Sys2Proof.Machine

-- The masked increment (R41).

/-- The masked increment is the plain AW-bit increment. -/
theorem nextIndex_eq_add_one (aw : Nat) (p : BitVec aw) : nextIndex aw p = p + 1 :=
  BitVec.eq_of_toNat_eq (by simp [nextIndex_toNat, BitVec.toNat_add])

theorem nextIndex_of_last {aw : Nat} {p : BitVec aw} (hp : p.toNat = 2 ^ aw - 1) : nextIndex aw p = 0 := by
  apply BitVec.eq_of_toNat_eq
  rw [nextIndex_toNat, hp, Nat.sub_add_cancel Nat.one_le_two_pow, Nat.mod_self]
  rfl

/-- Settles O33: `next` is the increment modulo C, and a command without reset is one edge, which moves each index by
`next` or not at all. -/
theorem maskedIncrement : Obligations.MaskedIncrement := by
  refine ⟨fun aw p => ?increment, fun i s r hi hb => ?command⟩
  case increment =>
    refine ⟨?_, nextIndex_toNat aw p, nextIndex_eq_add_one aw p, nextIndex_of_last⟩
    rw [nextIndex_toNat, Nat.and_two_pow_sub_one_eq_mod]
  case command => exact ⟨_, _, exec_live hi hb, (ite_eq_or_eq _ _ _).symm, (ite_eq_or_eq _ _ _).symm⟩

-- The head byte is the first of the contents (R120, R147).

section Head
variable {aw : Nat} {r : Regs aw} {a : Byte} {q : List Byte}

theorem count_ne_zero_of_contentsOf_cons (h : contentsOf r = a :: q) : r.count.toNat ≠ 0 := by
  rw [← length_contentsOf, h]
  exact Nat.succ_ne_zero _

theorem readAccepted_of_contentsOf_cons (h : contentsOf r = a :: q) : readAccepted r = true :=
  (readAccepted_iff r).mpr (count_ne_zero_of_contentsOf_cons h)

theorem headByte_of_contentsOf_cons (h : contentsOf r = a :: q) : headByte r = a := by
  obtain ⟨q', hq'⟩ := contentsOf_eq_head_cons (count_ne_zero_of_contentsOf_cons h)
  exact (List.cons.inj (hq'.symm.trans h)).1

theorem contentsOf_eq_nil (h : r.count.toNat = 0) : contentsOf r = [] :=
  List.eq_nil_of_length_eq_zero (by rw [length_contentsOf, h])

end Head

-- DEQ takes the oldest byte (R48).

/-- DEQ returns the first byte of the contents and leaves the rest. -/
theorem exec_deq_of_contentsOf_cons {s : State} {r : Regs s.cfg.aw} {a : Byte} {q : List Byte}
    (hb : s.block = .live r) (hinv : r.Inv) (hc : contentsOf r = a :: q) :
    ∃ (r' : Regs s.cfg.aw) (o : Output s.cfg.aw), exec .deq s = .next (s.latch r' o) ∧
      o.rdAck = true ∧ o.rdData = a ∧ r'.Inv ∧ contentsOf r' = q := by
  have hread : wantsRead .deq r = true := readAccepted_of_contentsOf_cons hc
  refine ⟨portEdge false true 0 r, outputsOf false true r, ?_, rfl, headByte_of_contentsOf_cons hc, ?_, ?_⟩
  · rw [exec_live (by nofun) hb, hread]
    rfl
  · exact portEdge_inv hinv 0 (by nofun) fun _ => count_ne_zero_of_contentsOf_cons hc
  · rw [contentsOf_portEdge hinv 0 (by nofun) fun _ => count_ne_zero_of_contentsOf_cons hc, hc]
    simp

/-- Settles O38: each DEQ takes the first byte of the contents, and the second finds what the first has left. -/
theorem deqTakesTheNextByte : Obligations.DeqTakesTheNextByte := by
  intro s r a b q hb hinv hc
  obtain ⟨r₁, o₁, hexec₁, hack₁, hdata₁, hinv₁, hc₁⟩ := exec_deq_of_contentsOf_cons hb hinv hc
  obtain ⟨r₂, o₂, hexec₂, hack₂, hdata₂, -, hc₂⟩ :=
    exec_deq_of_contentsOf_cons (s := s.latch r₁ o₁) rfl hinv₁ hc₁
  exact ⟨_, _, r₂, o₂, hexec₁, hack₁, hdata₁, hexec₂, hack₂, hdata₂, rfl, hc₂⟩

-- ENQDEQ at the two ends of the count (R50, R185).

section Ends
variable {aw : Nat} {r : Regs aw}

theorem accepted_of_count_eq_zero (h : r.count.toNat = 0) : writeAccepted r = true ∧ readAccepted r = false := by
  have hC : 0 ≠ 2 ^ aw := (Nat.two_pow_pos aw).ne
  simp [writeAccepted, readAccepted, isFull, isEmpty, h, hC]

theorem accepted_of_count_eq_capacity (h : r.count.toNat = 2 ^ aw) :
    writeAccepted r = false ∧ readAccepted r = true := by
  simp [writeAccepted, readAccepted, isFull, isEmpty, h]

/-- The byte written to an empty FIFO is its contents. -/
theorem contentsOf_portEdge_of_empty (hinv : r.Inv) (h : r.count.toNat = 0) (d : Byte) :
    contentsOf (portEdge true false d r) = [d] := by
  have hC : r.count.toNat ≠ 2 ^ aw := h ▸ (Nat.two_pow_pos aw).ne
  rw [contentsOf_portEdge hinv d (fun _ => hC) (by nofun), contentsOf_eq_nil h]
  rfl

/-- A read frees a cell, so a write is accepted after it. -/
theorem writeAccepted_portEdge_of_read (hinv : r.Inv) (d : Byte) :
    writeAccepted (portEdge false true d r) = true := by
  have hcount := portEdge_count_toNat (wa := false) (ra := true) hinv d (by nofun)
  have hC : 0 < 2 ^ aw := Nat.two_pow_pos aw
  obtain ⟨-, hle, -⟩ := hinv
  simp only [Bool.false_eq_true, if_false, if_true] at hcount
  rw [writeAccepted_iff, hcount]
  omega

end Ends

/-- Settles O34: at count 0 the edge of ENQDEQ stores `d` as the only byte, which the next DEQ finds at the head; at
count C it only reads, and the next ENQ finds the freed cell. -/
theorem noSameCycleBypass : Obligations.NoSameCycleBypass := by
  intro s r d d' hb hinv
  refine ⟨_, _, _, exec_live (by nofun) hb, exec_live (by nofun) (State.latch_block ..),
    exec_live (by nofun) (State.latch_block ..), fun hempty => ?empty, fun hfull => ?full⟩
  case empty =>
    obtain ⟨hw, hr⟩ : wantsWrite (.enqdeq d) r = true ∧ wantsRead (.enqdeq d) r = false :=
      accepted_of_count_eq_zero hempty
    have hc := contentsOf_portEdge_of_empty hinv hempty d
    have hread : wantsRead .deq (portEdge true false d r) = true := readAccepted_of_contentsOf_cons hc
    simp [hw, hr, hread, Instr.operand, headByte_of_contentsOf_cons hc]
  case full =>
    obtain ⟨hw, hr⟩ : wantsWrite (.enqdeq d) r = false ∧ wantsRead (.enqdeq d) r = true :=
      accepted_of_count_eq_capacity hfull
    have hwrite : wantsWrite (.enq d') (portEdge false true d r) = true := writeAccepted_portEdge_of_read hinv d
    simp [hw, hr, hwrite, Instr.operand]

-- A cycle read off the bits of its word (R60, R63, R144).

/-- `wa` of a cycle without reset, from the word: requested, and not full (R145). -/
def wordWrites {aw : Nat} (w : CmdWord) (r : Regs aw) : Bool := wrBit w && writeAccepted r

/-- `ra` of a cycle without reset, from the word: requested, and not empty (R145). -/
def wordReads {aw : Nat} (w : CmdWord) (r : Regs aw) : Bool := rdBit w && readAccepted r

section WordBits
variable {w : CmdWord}

theorem count_ne_capacity_of_wordWrites {aw : Nat} {r : Regs aw} (h : wordWrites w r = true) :
    r.count.toNat ≠ 2 ^ aw := (writeAccepted_iff r).mp (Bool.and_elim_right h)

theorem count_ne_zero_of_wordReads {aw : Nat} {r : Regs aw} (h : wordReads w r = true) : r.count.toNat ≠ 0 :=
  (readAccepted_iff r).mp (Bool.and_elim_right h)

theorem decode_of_rstBit (h : rstBit w = true) : decode w = .rst := by simp [decode, h]

/-- Without reset the two request bits select the command (R63). -/
theorem decode_of_not_rstBit (h : rstBit w = false) :
    decode w =
      if rdBit w then (if wrBit w then .enqdeq (dataField w) else .deq)
      else if wrBit w then .enq (dataField w) else .nop := by
  cases hrd : rdBit w <;> cases hwr : wrBit w <;> simp [decode, h, hrd, hwr]

/-- A word without reset, on live registers: each port acts when its bit requests it and the pre-edge count accepts
it, and the byte is the word's. -/
theorem exec_decode_live (h : rstBit w = false) {s : State} {r : Regs s.cfg.aw} (hb : s.block = .live r) :
    exec (decode w) s =
      .next (s.latch (portEdge (wordWrites w r) (wordReads w r) (dataField w) r)
        (outputsOf (wordWrites w r) (wordReads w r) r)) := by
  rw [decode_of_not_rstBit h, wordWrites, wordReads]
  cases rdBit w <;> cases wrBit w <;> exact exec_live (by nofun) hb

end WordBits

/-- A step whose word resets ends in the reset registers, from any block (R80, R182). -/
theorem step_of_rstBit {s : State} (h : rstBit (fetchWord s) = true) :
    ∃ (o : Output s.cfg.aw) (ws : List CmdWord) (n m : Nat), step s = .next
      { s with block := .live (Regs.reset s.cfg.aw), out := o, inputs := ws, wordDraws := n, outputDraws := m } := by
  obtain ⟨ws, n, hs⟩ := consumeWord_eq s
  rw [step, hs, decode_of_rstBit h, exec_rst]
  exact ⟨_, ws, n, _, rfl⟩

/-- A step whose word does not reset, on live registers, is one edge. -/
theorem step_of_not_rstBit {s : State} {w : CmdWord} {r : Regs s.cfg.aw} (hw : fetchWord s = w)
    (h : rstBit w = false) (hb : s.block = .live r) :
    ∃ (ws : List CmdWord) (n : Nat), step s = .next
      { s with
        block := .live (portEdge (wordWrites w r) (wordReads w r) (dataField w) r)
        out := outputsOf (wordWrites w r) (wordReads w r) r, inputs := ws, wordDraws := n } := by
  obtain ⟨ws, n, hs⟩ := consumeWord_eq s
  rw [step, hs, hw]
  exact ⟨ws, n, exec_decode_live h (s := { s with inputs := ws, wordDraws := n }) hb⟩

-- The FIFO law as an invariant of every step (R151).

/-- The block is live and meets its invariant, and the bytes accepted are the bytes returned followed by the contents
(R151). -/
def FifoInv (s : State) (h : History) : Prop :=
  ∃ r : Regs s.cfg.aw, s.block = .live r ∧ r.Inv ∧ h.written = h.returned ++ contentsOf r

/-- A reset cycle begins the history anew (R81 (b)). -/
theorem History.after_of_rst {aw : Nat} (h : History) {i : Input} (o : Output aw) (hi : i.rst = true) :
    h.after i o = ⟨[], []⟩ := if_pos hi

/-- A cycle without reset adds the byte of each port that acts. -/
theorem History.after_outputsOf {aw : Nat} (h : History) {i : Input} (wa ra : Bool) (r : Regs aw)
    (hi : i.rst = false) :
    h.after i (outputsOf wa ra r) =
      { written := h.written ++ (if wa then [i.wrData] else [])
        returned := h.returned ++ (if ra then [headByte r] else []) } := by
  rw [History.after, if_neg (by simp [hi])]
  cases ra <;> rfl

/-- An edge in which each port acts only where it may keeps the histories in step with the contents. -/
theorem written_eq_returned_append_portEdge {aw : Nat} {r : Regs aw} {wa ra : Bool} {W R : List Byte} (hinv : r.Inv)
    (d : Byte) (hw : wa = true → r.count.toNat ≠ 2 ^ aw) (hr : ra = true → r.count.toNat ≠ 0)
    (h : W = R ++ contentsOf r) :
    W ++ (if wa then [d] else []) =
      (R ++ (if ra then [headByte r] else [])) ++ contentsOf (portEdge wa ra d r) := by
  rw [contentsOf_portEdge hinv d hw hr, h]
  cases ra with
  | false => simp
  | true =>
    obtain ⟨q, hq⟩ := contentsOf_eq_head_cons (hr rfl)
    simp [hq]

/-- A step whose word resets establishes the law, from any state and any history. -/
theorem exists_step_fifoInv_of_rstBit {s : State} (h : History) (hrst : rstBit (fetchWord s) = true) :
    ∃ t, step s = .next t ∧ FifoInv t (h.after (Input.ofWord (fetchWord s)) t.out) := by
  obtain ⟨o, ws, n, m, hstep⟩ := step_of_rstBit hrst
  refine ⟨_, hstep, Regs.reset s.cfg.aw, rfl, Regs.reset_inv s.cfg.aw, ?_⟩
  rw [History.after_of_rst h _ hrst, contentsOf_reset]
  rfl

/-- A live block that meets the law takes its step and meets it again, whatever the word. -/
theorem FifoInv.exists_step {s : State} {h : History} (hfifo : FifoInv s h) :
    ∃ t, step s = .next t ∧ FifoInv t (h.after (Input.ofWord (fetchWord s)) t.out) := by
  cases hrst : rstBit (fetchWord s) with
  | true => exact exists_step_fifoInv_of_rstBit h hrst
  | false =>
    obtain ⟨r, hb, hinv, hlaw⟩ := hfifo
    obtain ⟨ws, n, hstep⟩ := step_of_not_rstBit rfl hrst hb
    refine ⟨_, hstep, _, rfl,
      portEdge_inv hinv _ count_ne_capacity_of_wordWrites count_ne_zero_of_wordReads, ?_⟩
    rw [History.after_outputsOf h _ _ r hrst]
    exact written_eq_returned_append_portEdge hinv _ count_ne_capacity_of_wordWrites count_ne_zero_of_wordReads hlaw

/-- Settles O39: the law is kept by the step, and the step is unique. -/
theorem fifoHistoryIsKept : Obligations.FifoHistoryIsKept := by
  intro s t h r hb hinv hlaw hstep
  obtain ⟨t', hstep', hfifo⟩ := FifoInv.exists_step ⟨r, hb, hinv, hlaw⟩
  obtain rfl : t' = t := Host.Outcome.next.inj (hstep'.symm.trans hstep)
  exact hfifo

-- Whole runs (R47, R151).

theorem runCycles_succ {s t : State} (n : Nat) (h : History) (hstep : step s = .next t) :
    runCycles (n + 1) s h = runCycles n t (h.after (Input.ofWord (fetchWord s)) t.out) := by
  simp [runCycles, hstep]

/-- A block that meets the law completes any number of cycles and meets it after them. -/
theorem FifoInv.exists_runCycles (n : Nat) {s : State} {h : History} (hfifo : FifoInv s h) :
    ∃ t h', runCycles n s h = some (t, h') ∧ FifoInv t h' := by
  induction n generalizing s h with
  | zero => exact ⟨s, h, rfl, hfifo⟩
  | succ n ih =>
    obtain ⟨t, hstep, hfifo'⟩ := hfifo.exists_step
    rw [runCycles_succ n h hstep]
    exact ih hfifo'

/-- Every run that begins with a reset completes and meets the law. -/
theorem exists_runCycles_fifoInv_of_rstBit (n : Nat) {s : State} (h : History) (hrst : rstBit (fetchWord s) = true) :
    ∃ t h', runCycles (n + 1) s h = some (t, h') ∧ FifoInv t h' := by
  obtain ⟨t, hstep, hfifo⟩ := exists_step_fifoInv_of_rstBit h hrst
  rw [runCycles_succ n h hstep]
  exact hfifo.exists_runCycles n

/-- Settles O40: the law holds after every run from a reset on, and by it the returned bytes begin the list of the
accepted ones. -/
theorem fifoLaw : Obligations.FifoLaw := by
  intro n s h hrst
  obtain ⟨t, h', hrun, r, hb, -, hlaw⟩ := exists_runCycles_fifoInv_of_rstBit n h hrst
  refine ⟨t, h', r, hrun, hb, hlaw, fun k hk => ?_⟩
  rw [hlaw, List.getElem?_append_left hk]

end Sys2Proof.Machine
end

section
/-! PROOFS. The encoding (30_encoding.md R60 to R67): a word is its four fields, the masks of the opcode table clear
fields, and the decoder, the encoder and the table read off the fields. -/

namespace Sys2Proof

open Machine

-- A word and its four fields (R60).

/-- A word is the packing of its own fields (R60: no bit of the word lies outside them). -/
theorem packWord_fields (w : CmdWord) : packWord (rstBit w) (rdBit w) (wrBit w) (dataField w) = w := by
  apply BitVec.eq_of_getLsbD_eq
  intro k hk
  simp only [packWord, rstBit, rdBit, wrBit, dataField, BitVec.getLsbD_cast, BitVec.getLsbD_append,
    BitVec.getLsbD_extractLsb', BitVec.getLsbD_ofBool]
  interval_cases k <;> simp

/-- Words are masked field by field. -/
theorem packWord_and_packWord (rst rd wr rst' rd' wr' : Bool) (d d' : Byte) :
    packWord rst rd wr d &&& packWord rst' rd' wr' d' =
      packWord (rst && rst') (rd && rd') (wr && wr') (d &&& d') := by
  apply BitVec.eq_of_getLsbD_eq
  intro k hk
  simp only [packWord, BitVec.getLsbD_cast, BitVec.getLsbD_append, BitVec.getLsbD_and, BitVec.getLsbD_ofBool]
  interval_cases k <;> simp

theorem packWord_inj {rst rd wr rst' rd' wr' : Bool} {d d' : Byte} :
    packWord rst rd wr d = packWord rst' rd' wr' d' ↔ rst = rst' ∧ rd = rd' ∧ wr = wr' ∧ d = d' := by
  constructor
  · intro h
    exact ⟨by simpa using congrArg rstBit h, by simpa using congrArg rdBit h, by simpa using congrArg wrBit h,
      by simpa using congrArg dataField h⟩
  · rintro ⟨rfl, rfl, rfl, rfl⟩
    rfl

/-- The mask of the rows without reset keeps the three control bits (R62). -/
theorem and_0x700 (w : CmdWord) : w &&& 0x700 = packWord (rstBit w) (rdBit w) (wrBit w) 0 :=
  calc w &&& 0x700
    _ = packWord (rstBit w) (rdBit w) (wrBit w) (dataField w) &&& packWord true true true 0 := by
      rw [packWord_fields]; rfl
    _ = packWord (rstBit w) (rdBit w) (wrBit w) 0 := by simp [packWord_and_packWord]

/-- The mask of the row RST keeps the reset bit (R62). -/
theorem and_0x400 (w : CmdWord) : w &&& 0x400 = packWord (rstBit w) false false 0 :=
  calc w &&& 0x400
    _ = packWord (rstBit w) (rdBit w) (wrBit w) (dataField w) &&& packWord true false false 0 := by
      rw [packWord_fields]; rfl
    _ = packWord (rstBit w) false false 0 := by simp [packWord_and_packWord]

/-- The mask 0x7FF keeps the whole word. -/
theorem and_0x7FF (w : CmdWord) : w &&& 0x7FF = w := BitVec.and_allOnes

/-- A row without reset is selected by its three control bits. -/
theorem and_0x700_eq_iff {w : CmdWord} {rst rd wr : Bool} :
    w &&& 0x700 = packWord rst rd wr 0 ↔ rstBit w = rst ∧ rdBit w = rd ∧ wrBit w = wr := by
  rw [and_0x700, packWord_inj]
  simp only [and_true]

/-- The row RST is selected by the reset bit. -/
theorem and_0x400_eq_iff {w : CmdWord} : w &&& 0x400 = 0x400 ↔ rstBit w = true := by
  rw [and_0x400, show (0x400 : CmdWord) = packWord true false false 0 from rfl, packWord_inj]
  simp

theorem extractLsb'_10_1 (w : CmdWord) : w.extractLsb' 10 1 = BitVec.ofBool (rstBit w) := by
  apply BitVec.eq_of_getLsbD_eq
  intro k hk
  simp only [rstBit, BitVec.getLsbD_extractLsb', BitVec.getLsbD_ofBool]
  interval_cases k
  simp

theorem extractLsb'_8_2 (w : CmdWord) :
    w.extractLsb' 8 2 = BitVec.ofBool (rdBit w) ++ BitVec.ofBool (wrBit w) := by
  apply BitVec.eq_of_getLsbD_eq
  intro k hk
  simp only [rdBit, wrBit, BitVec.getLsbD_extractLsb', BitVec.getLsbD_append, BitVec.getLsbD_ofBool]
  interval_cases k <;> simp

-- The decoder and the encoder on the fields (R63, R64).

/-- The operand is or-ed into the word (R68). -/
theorem packWord_or_setWidth (rst rd wr : Bool) (d : Byte) :
    packWord rst rd wr 0 ||| d.setWidth 11 = packWord rst rd wr d := by
  apply BitVec.eq_of_getLsbD_eq
  intro k hk
  simp only [packWord, BitVec.getLsbD_cast, BitVec.getLsbD_append, BitVec.getLsbD_or, BitVec.getLsbD_setWidth,
    BitVec.getLsbD_ofBool]
  interval_cases k <;> simp

theorem encode_enq (d : Byte) : encode (.enq d) = packWord false false true d :=
  packWord_or_setWidth false false true d

theorem encode_enqdeq (d : Byte) : encode (.enqdeq d) = packWord false true true d :=
  packWord_or_setWidth false true true d

/-- The canonical word of a command decodes to it. -/
theorem decode_encode (i : Instr) : decode (encode i) = i := by
  cases i with
  | nop => rfl
  | enq d => simp [encode_enq, decode]
  | deq => rfl
  | enqdeq d => simp [encode_enqdeq, decode]
  | rst => rfl

/-- The bits of a word that its command reads: its row's mask, and `D` for a command with an operand (R61, R62). -/
def Instr.readMask : Instr → CmdWord
  | .nop => 0x700
  | .enq _ => 0x7FF
  | .deq => 0x700
  | .enqdeq _ => 0x7FF
  | .rst => 0x400

/-- The canonical word of the command a word decodes to is that word with its ignored bits 0 (R64). -/
theorem encode_decode (w : CmdWord) : encode (decode w) = w &&& (decode w).readMask := by
  have hw := packWord_fields w
  cases hrst : rstBit w with
  | true =>
    rw [decode_of_rstBit hrst]
    exact (and_0x400_eq_iff.mpr hrst).symm
  | false =>
    rw [decode_of_not_rstBit hrst]
    cases hrd : rdBit w <;> cases hwr : wrBit w <;> rw [hrst, hrd, hwr] at hw
    case false.false => exact (and_0x700_eq_iff.mpr ⟨hrst, hrd, hwr⟩).symm
    case false.true => exact (encode_enq _).trans (hw.trans (and_0x7FF w).symm)
    case true.false => exact (and_0x700_eq_iff.mpr ⟨hrst, hrd, hwr⟩).symm
    case true.true => exact (encode_enqdeq _).trans (hw.trans (and_0x7FF w).symm)

theorem Instr.wf_eq_true (i : Instr) : i.wf = true := by
  cases i with
  | nop => rfl
  | enq d => exact decide_eq_true d.isLt
  | deq => rfl
  | enqdeq d => exact decide_eq_true d.isLt
  | rst => rfl

/-- A word is decoded from its number as from its bits, whatever its length is said to be (R65). -/
theorem decodeTableWord_toNat (nbits : Nat) (w : CmdWord) : decodeTableWord nbits w.toNat = some (decode w) := by
  simp only [decodeTableWord, decodeNumber, if_pos w.isLt, BitVec.ofNat_toNat, BitVec.setWidth_eq]

/-- Settles O4: a word is its four fields, so the canonical word gives its command back, and encoding what a word
decodes to keeps exactly the fields the command reads. -/
theorem decodeEncodeAgree : Obligations.DecodeEncodeAgree := by
  refine ⟨fun i => ⟨i.wf_eq_true, decode_encode i, fun nbits => ?_⟩, encode_decode⟩
  rw [decodeTableWord_toNat, decode_encode]

/-- Settles O1: the words of R71, decoded and encoded. -/
theorem decodeSampleWords : Obligations.DecodeSampleWords := by
  unfold Obligations.DecodeSampleWords
  decide

/-- Settles O2: bit 10 is the reset bit and bits 9:8 are the two request bits, on which the decoder branches. -/
theorem decoderFollowsTheBits : Obligations.DecoderFollowsTheBits := by
  intro w
  rw [extractLsb'_10_1, extractLsb'_8_2]
  cases h : rstBit w with
  | true => simp [decode_of_rstBit h]
  | false =>
    rw [decode_of_not_rstBit h]
    cases rdBit w <;> cases wrBit w <;> rfl

/-- Settles O3: each row is selected by the control bits that select its command. -/
theorem oneRowPerWord : Obligations.OneRowPerWord := by
  refine ⟨rfl, fun w => ?_⟩
  cases h : rstBit w with
  | true =>
    cases hrd : rdBit w <;> cases hwr : wrBit w <;>
      simp only [opcodeTable, List.filter, and_0x700, and_0x400, h, hrd, hwr, decode_of_rstBit h] <;> rfl
  | false =>
    rw [decode_of_not_rstBit h]
    cases hrd : rdBit w <;> cases hwr : wrBit w <;>
      simp only [opcodeTable, List.filter, and_0x700, and_0x400, h, hrd, hwr] <;> rfl

/-- Settles O6: the merged word packs the halves' fields, on which the decoder branches. -/
theorem driversMerge : Obligations.DriversMerge := by
  refine ⟨fun wh rh => ?_, ?_, fun d => ?_, ?_, fun d => ?_, fun rst wh wh' rh => rfl, fun rst wh rh rh' => ⟨rfl, rfl⟩⟩
  all_goals simp [mergeHalves, Input.word, decode]

end Sys2Proof
end

section
/-! PROOFS. A word placed on the ports acts through its command alone (30_encoding.md R64). -/

namespace Sys2Proof.Machine

theorem step_presentWord (s : State) (w : CmdWord) :
    step (presentWord s w) = exec (decode w) { s with inputs := s.inputs.tail } := rfl

/-- Words of one command execute alike from every state. -/
theorem step_presentWord_congr {w w' : CmdWord} (h : decode w = decode w') (s : State) :
    step (presentWord s w) = step (presentWord s w') := by
  rw [step_presentWord, step_presentWord, h]

theorem dataField_eq_setWidth (w : CmdWord) : dataField w = w.setWidth 8 := by
  simp [dataField, BitVec.setWidth_eq_extractLsb']

/-- A word whose row has no reset is the row's command, with the operand from its low byte (R61, R62). -/
theorem decode_of_and_0x700 {w : CmdWord} {rd wr : Bool} (h : w &&& 0x700 = packWord false rd wr 0) :
    decode w =
      if rd then (if wr then .enqdeq (w.setWidth 8) else .deq)
      else if wr then .enq (w.setWidth 8) else .nop := by
  obtain ⟨hrst, rfl, rfl⟩ := and_0x700_eq_iff.mp h
  rw [decode_of_not_rstBit hrst, dataField_eq_setWidth]

/-- Settles O5: the masks keep the control bits, which select the command, and the step reads no more of the word. -/
theorem ignoredBitsHaveNoMeaning : Obligations.IgnoredBitsHaveNoMeaning := by
  refine ⟨rfl, rfl, rfl, fun w => ⟨?partition, fun h => ?nop, fun h => ?enq, fun h => ?deq, fun h => ?enqdeq,
    fun h => ?rst⟩⟩
  case partition =>
    rw [and_0x700, and_0x400]
    cases rstBit w <;> cases rdBit w <;> cases wrBit w <;> decide
  case nop =>
    have hdec : decode w = .nop := decode_of_and_0x700 (rd := false) (wr := false) h
    exact ⟨hdec, step_presentWord_congr hdec⟩
  case enq => exact decode_of_and_0x700 (rd := false) (wr := true) h
  case deq =>
    have hdec : decode w = .deq := decode_of_and_0x700 (rd := true) (wr := false) h
    exact ⟨hdec, step_presentWord_congr hdec⟩
  case enqdeq => exact decode_of_and_0x700 (rd := true) (wr := true) h
  case rst =>
    have hdec : decode w = .rst := decode_of_rstBit (and_0x400_eq_iff.mp h)
    exact ⟨hdec, step_presentWord_congr hdec⟩

end Sys2Proof.Machine
end

section
/-! PROOFS. The host transactions of the two agents (30_encoding.md R69, R70; 41_enqueue.md R104; 42_dequeue.md R124):
one driven cycle on live registers, one equation per outcome of a transaction's cycle, and the runs by induction. -/

namespace Sys2Proof.Machine

-- One driven cycle (R32, R60, R144).

/-- Live registers latched again with the outputs they are shown with leave only the outputs changed. -/
theorem State.latch_of_block {s : State} {r : Regs s.cfg.aw} (hb : s.block = .live r) (o : Output s.cfg.aw) :
    s.latch r o = { s with out := o } := by
  rw [State.latch, ← hb]

section Drive
variable {s : State} {r : Regs s.cfg.aw}

/-- A driven cycle without reset is one edge: each port acts when it is requested and accepted. -/
theorem driveCycle_live (hb : s.block = .live r) {i : Input} (hi : i.rst = false) :
    driveCycle i s =
      .next (s.latch (portEdge (i.wrEn && writeAccepted r) (i.rdEn && readAccepted r) i.wrData r)
        (outputsOf (i.wrEn && writeAccepted r) (i.rdEn && readAccepted r) r)) := by
  have hrst : rstBit i.word = false := by simp [Input.word, hi]
  rw [driveCycle, exec_decode_live hrst hb]
  simp [wordWrites, wordReads, Input.word]

/-- A driven cycle in which neither port acts changes nothing but the output ports (R82, R102, R122). -/
theorem driveCycle_idle (hb : s.block = .live r) {i : Input} (hi : i.rst = false)
    (hw : (i.wrEn && writeAccepted r) = false) (hr : (i.rdEn && readAccepted r) = false) :
    driveCycle i s = .next { s with out := outputsOf false false r } := by
  rw [driveCycle_live hb hi, hw, hr, portEdge_idle, State.latch_of_block hb]

end Drive

-- One accepted write or read and the contents (R100, R120, R147).

section OnePort
variable {aw : Nat} {r : Regs aw}

/-- A byte written joins the contents at the tail. -/
theorem portEdge_write (hinv : r.Inv) (hroom : r.count.toNat ≠ 2 ^ aw) (b : Byte) :
    (portEdge true false b r).Inv ∧ (portEdge true false b r).count.toNat = r.count.toNat + 1 ∧
      contentsOf (portEdge true false b r) = contentsOf r ++ [b] :=
  ⟨portEdge_inv hinv b (fun _ => hroom) (by nofun), portEdge_count_toNat hinv b fun _ => hroom,
    contentsOf_portEdge hinv b (fun _ => hroom) (by nofun)⟩

/-- A read takes the head byte off the contents. -/
theorem portEdge_read (hinv : r.Inv) (hstored : r.count.toNat ≠ 0) (d : Byte) :
    (portEdge false true d r).Inv ∧ (portEdge false true d r).count.toNat = r.count.toNat - 1 ∧
      contentsOf r = headByte r :: contentsOf (portEdge false true d r) := by
  refine ⟨portEdge_inv hinv d (by nofun) fun _ => hstored, portEdge_count_toNat hinv d (by nofun), ?_⟩
  obtain ⟨q, hq⟩ := contentsOf_eq_head_cons hstored
  rw [contentsOf_portEdge hinv d (by nofun) fun _ => hstored, hq]
  simp

end OnePort

-- Bursts without a request by the other side (R104, R124).

section Bursts
variable {s : State} {r : Regs s.cfg.aw}

/-- ENQN stores its next byte while there is room. -/
theorem enqnFrom_cons_of_room {other : Nat → ConsumerSide} {t : Nat} (hother : other t = ⟨false, .idle⟩)
    (hb : s.block = .live r) (hroom : r.count.toNat ≠ 2 ^ s.cfg.aw) (k c : Nat) (b : Byte) (bs : List Byte) :
    enqnFrom other t k c (b :: bs) s =
      enqnFrom other (t + 1) (k + 1) (c + 1) bs (s.latch (portEdge true false b r) (outputsOf true false r)) := by
  have hacc : writeAccepted r = true := (writeAccepted_iff r).mpr hroom
  rw [enqnFrom, hother, driveCycle_live hb rfl]
  simp [mergeHalves, hacc, andThen]

/-- ENQN ends at the first byte turned away. -/
theorem enqnFrom_cons_of_full {other : Nat → ConsumerSide} {t : Nat} (hother : other t = ⟨false, .idle⟩)
    (hb : s.block = .live r) (hfull : r.count.toNat = 2 ^ s.cfg.aw) (k c : Nat) (b : Byte) (bs : List Byte) :
    enqnFrom other t k c (b :: bs) s = .next ⟨k, c + 1, { s with out := outputsOf false false r }⟩ := by
  have hacc : writeAccepted r = false := (accepted_of_count_eq_capacity hfull).1
  rw [enqnFrom, hother, driveCycle_idle hb rfl (by simp [hacc]) rfl]
  rfl

/-- DEQN takes the next byte while there is one. -/
theorem deqnFrom_succ_of_stored {other : Nat → ProducerSide} {t : Nat} (hother : other t = ⟨false, .idle⟩)
    (hb : s.block = .live r) (hstored : r.count.toNat ≠ 0) (dest : List Byte) (c n : Nat) :
    deqnFrom other t dest c (n + 1) s =
      deqnFrom other (t + 1) (dest ++ [headByte r]) (c + 1) n
        (s.latch (portEdge false true 0 r) (outputsOf false true r)) := by
  have hacc : readAccepted r = true := (readAccepted_iff r).mpr hstored
  rw [deqnFrom, hother, driveCycle_live hb rfl]
  simp [mergeHalves, hacc, andThen]

/-- DEQN ends at the first empty cycle. -/
theorem deqnFrom_succ_of_empty {other : Nat → ProducerSide} {t : Nat} (hother : other t = ⟨false, .idle⟩)
    (hb : s.block = .live r) (hempty : r.count.toNat = 0) (dest : List Byte) (c n : Nat) :
    deqnFrom other t dest c (n + 1) s = .next ⟨dest, c + 1, { s with out := outputsOf false false r }⟩ := by
  have hacc : readAccepted r = false := (accepted_of_count_eq_zero hempty).2
  rw [deqnFrom, hother, driveCycle_idle hb rfl rfl (by simp [hacc])]
  rfl

/-- ENQN's remaining bytes: those that fit join the contents in order. -/
theorem enqnFrom_quiet {other : Nat → ConsumerSide} (hother : ∀ t, other t = ⟨false, .idle⟩) (bs : List Byte)
    (hb : s.block = .live r) (hinv : r.Inv) (t k c : Nat) {n : Nat}
    (hn : n = min bs.length (2 ^ s.cfg.aw - r.count.toNat)) :
    ∃ (r' : Regs s.cfg.aw) (o : Output s.cfg.aw),
      enqnFrom other t k c bs s = .next ⟨k + n, c + min bs.length (n + 1), s.latch r' o⟩ ∧
        contentsOf r' = contentsOf r ++ bs.take n ∧ r'.Inv := by
  induction bs generalizing s t k c n with
  | nil =>
    obtain rfl : n = 0 := by simpa using hn
    exact ⟨r, s.out, by rw [State.latch_of_block hb]; rfl, by simp, hinv⟩
  | cons b bs ih =>
    obtain ⟨-, hle, -⟩ := id hinv
    rw [List.length_cons] at hn ⊢
    by_cases hfull : r.count.toNat = 2 ^ s.cfg.aw
    · obtain rfl : n = 0 := by omega
      refine ⟨r, outputsOf false false r, ?_, by simp, hinv⟩
      rw [enqnFrom_cons_of_full (hother t) hb hfull, State.latch_of_block hb]
      simp
    · obtain ⟨hinv₁, hcount, hcont⟩ := portEdge_write hinv hfull b
      obtain ⟨m, rfl⟩ : ∃ m, n = m + 1 := ⟨n - 1, by omega⟩
      have hm : m = min bs.length (2 ^ s.cfg.aw - (portEdge true false b r).count.toNat) := by omega
      obtain ⟨r', o, hrun, hcont', hinv'⟩ :=
        ih (s := s.latch (portEdge true false b r) (outputsOf true false r)) rfl hinv₁ (t + 1) (k + 1) (c + 1) hm
      refine ⟨r', o, ?_, ?_, hinv'⟩
      · rw [enqnFrom_cons_of_room (hother t) hb hfull, hrun]
        simp [Nat.add_assoc, Nat.add_comm 1]
      · rw [hcont', hcont, List.append_assoc]
        rfl

/-- DEQN's remaining bytes: the oldest ones that are stored, in order. -/
theorem deqnFrom_quiet {other : Nat → ProducerSide} (hother : ∀ t, other t = ⟨false, .idle⟩) (n : Nat)
    (hb : s.block = .live r) (hinv : r.Inv) (t : Nat) (dest : List Byte) (c : Nat) {k : Nat}
    (hk : k = min n r.count.toNat) :
    ∃ (r' : Regs s.cfg.aw) (o : Output s.cfg.aw),
      deqnFrom other t dest c n s =
          .next ⟨dest ++ (contentsOf r).take k, c + min n (k + 1), s.latch r' o⟩ ∧
        contentsOf r' = (contentsOf r).drop k ∧ r'.Inv := by
  induction n generalizing s t dest c k with
  | zero =>
    obtain rfl : k = 0 := by omega
    exact ⟨r, s.out, by rw [State.latch_of_block hb]; simp [deqnFrom], rfl, hinv⟩
  | succ n ih =>
    by_cases hempty : r.count.toNat = 0
    · obtain rfl : k = 0 := by omega
      refine ⟨r, outputsOf false false r, ?_, rfl, hinv⟩
      rw [deqnFrom_succ_of_empty (hother t) hb hempty, State.latch_of_block hb]
      simp
    · obtain ⟨hinv₁, hcount, hcont⟩ := portEdge_read hinv hempty 0
      obtain ⟨m, rfl⟩ : ∃ m, k = m + 1 := ⟨k - 1, by omega⟩
      have hm : m = min n (portEdge false true 0 r).count.toNat := by omega
      obtain ⟨r', o, hrun, hcont', hinv'⟩ :=
        ih (s := s.latch (portEdge false true 0 r) (outputsOf false true r)) rfl hinv₁ (t + 1)
          (dest ++ [headByte r]) (c + 1) hm
      refine ⟨r', o, ?_, ?_, hinv'⟩
      · rw [deqnFrom_succ_of_stored (hother t) hb hempty, hrun, hcont]
        simp [Nat.add_assoc, Nat.add_comm 1]
      · rw [hcont', hcont]
        rfl

end Bursts

/-- Settles O42: `enqnFrom_quiet` from the first byte on. -/
theorem enqnStoresWhatFits : Obligations.EnqnStoresWhatFits := by
  intro other bs s r k hother hb hinv hk
  obtain ⟨r', o, hrun, hcont, hinv'⟩ := enqnFrom_quiet hother bs hb hinv 0 0 0 hk
  exact ⟨r', o, by simpa [enqn] using hrun, hcont, hinv'⟩

/-- Settles O44: `deqnFrom_quiet` from the first cycle on. -/
theorem deqnReturnsWhatIsStored : Obligations.DeqnReturnsWhatIsStored := by
  intro other n s r k hother hb hinv hk
  obtain ⟨r', o, hrun, hcont, hinv'⟩ := deqnFrom_quiet hother n hb hinv 0 [] 0 hk
  exact ⟨r', o, by simpa [deqn] using hrun, hcont, hinv'⟩

-- Idle cycles and empty transactions (R69, R82).

section Idle
variable {s : State} {r : Regs s.cfg.aw}

theorem idleWriteFrom_quiet {other : Nat → ConsumerSide} (hother : ∀ t, other t = ⟨false, .idle⟩) (k : Nat)
    (hb : s.block = .live r) (t : Nat) :
    ∃ o : Output s.cfg.aw, idleWriteFrom other t k s = .next { s with out := o } := by
  induction k generalizing s t with
  | zero => exact ⟨s.out, rfl⟩
  | succ k ih =>
    rw [idleWriteFrom, hother, driveCycle_idle hb rfl rfl rfl]
    exact ih (s := { s with out := outputsOf false false r }) hb (t + 1)

theorem idleReadFrom_quiet {other : Nat → ProducerSide} (hother : ∀ t, other t = ⟨false, .idle⟩) (k : Nat)
    (hb : s.block = .live r) (t : Nat) :
    ∃ o : Output s.cfg.aw, idleReadFrom other t k s = .next { s with out := o } := by
  induction k generalizing s t with
  | zero => exact ⟨s.out, rfl⟩
  | succ k ih =>
    rw [idleReadFrom, hother, driveCycle_idle hb rfl rfl rfl]
    exact ih (s := { s with out := outputsOf false false r }) hb (t + 1)

end Idle

/-- Settles O51: a transaction of no cycles is its own start, and idle cycles change the output ports alone. -/
theorem emptyAndIdleTransactions : Obligations.EmptyAndIdleTransactions := by
  refine ⟨fun _ _ => rfl, fun _ _ => rfl, fun consumer producer k s r hconsumer hproducer hb => ?_⟩
  obtain ⟨o, hwrite⟩ := idleWriteFrom_quiet hconsumer k hb 0
  obtain ⟨o', hread⟩ := idleReadFrom_quiet hproducer k hb 0
  exact ⟨o, o', hwrite, hread⟩

-- PUTB (R70, R188).

section Putb
variable {other : Nat → ConsumerSide} {s : State} {r : Regs s.cfg.aw} (b : Byte) {t : Nat} (c : Nat)

/-- PUTB ends in a cycle with room, whatever the consumer does in it. -/
theorem putbFrom_of_room (hrst : (other t).rst = false) (hb : s.block = .live r)
    (hroom : r.count.toNat ≠ 2 ^ s.cfg.aw) (fuel : Nat) :
    ∃ u, putbFrom other b t c (fuel + 1) s = .next (some ⟨(), c + 1, u⟩) ∧ u.out.wrAck = true := by
  have hacc : writeAccepted r = true := (writeAccepted_iff r).mpr hroom
  rw [putbFrom, driveCycle_live hb (by exact hrst)]
  simp [mergeHalves, hacc, andThen]

/-- PUTB is turned away at capacity, and the consumer's read is accepted. -/
theorem putbFrom_of_full_of_dequeue (hother : other t = ⟨false, .dequeue⟩) (hb : s.block = .live r)
    (hfull : r.count.toNat = 2 ^ s.cfg.aw) (fuel : Nat) :
    putbFrom other b t c (fuel + 1) s =
      putbFrom other b (t + 1) (c + 1) fuel (s.latch (portEdge false true b r) (outputsOf false true r)) := by
  obtain ⟨hw, hr⟩ := accepted_of_count_eq_capacity hfull
  rw [putbFrom, hother, driveCycle_live hb rfl]
  simp [mergeHalves, hw, hr, andThen]

/-- PUTB is still blocked after any number of cycles at capacity with the consumer idle. -/
theorem putbFrom_add_of_full (n : Nat) (hother : ∀ u, t ≤ u → u < t + n → other u = ⟨false, .idle⟩)
    (hb : s.block = .live r) (hfull : r.count.toNat = 2 ^ s.cfg.aw) :
    ∃ o : Output s.cfg.aw, ∀ fuel,
      putbFrom other b t c (n + fuel) s = putbFrom other b (t + n) (c + n) fuel { s with out := o } := by
  have hacc : writeAccepted r = false := (accepted_of_count_eq_capacity hfull).1
  induction n generalizing s t c with
  | zero => exact ⟨s.out, fun fuel => by rw [Nat.zero_add]; rfl⟩
  | succ n ih =>
    obtain ⟨o, hrun⟩ := ih (s := { s with out := outputsOf false false r }) (t := t + 1) (c + 1)
      (fun u hu hu' => hother u (by omega) (by omega)) hb hfull hacc
    refine ⟨o, fun fuel => ?_⟩
    rw [Nat.add_right_comm n 1, putbFrom, hother t (Nat.le_refl t) (by omega),
      driveCycle_idle hb rfl (by simp [hacc]) rfl]
    simpa [andThen, Nat.add_assoc, Nat.add_comm 1] using hrun fuel

/-- PUTB watched from its first cycle, past the cycles it is surely blocked in. -/
theorem putb_add_of_full (n : Nat) (hother : ∀ u, u < n → other u = ⟨false, .idle⟩) (hb : s.block = .live r)
    (hfull : r.count.toNat = 2 ^ s.cfg.aw) :
    ∃ o : Output s.cfg.aw, ∀ fuel, putb other b (n + fuel) s = putbFrom other b n n fuel { s with out := o } := by
  simpa [putb] using putbFrom_add_of_full (t := 0) b 0 n (fun u _ hu => hother u (by omega)) hb hfull

end Putb

/-- Settles O49: with room PUTB ends; at capacity it waits until the consumer's read has made room. -/
theorem putbEndsWhenRoomIsMade : Obligations.PutbEndsWhenRoomIsMade := by
  intro other b s r fuel hb hinv
  refine ⟨fun hrst hroom => ?room, fun hfull hidle => ?blocked, fun hfull hidle hread hrst => ?freed⟩
  case room => exact putbFrom_of_room b 0 hrst hb (Nat.ne_of_lt hroom) fuel
  case blocked =>
    obtain ⟨o, hwait⟩ := putb_add_of_full b fuel hidle hb hfull
    exact hwait 0
  case freed =>
    obtain ⟨o, hwait⟩ := putb_add_of_full b fuel hidle hb hfull
    have hroom : (portEdge false true b r).count.toNat ≠ 2 ^ s.cfg.aw :=
      (writeAccepted_iff _).mp (writeAccepted_portEdge_of_read hinv b)
    rw [hwait 2, putbFrom_of_full_of_dequeue (s := { s with out := o }) b _ hread hb hfull]
    exact putbFrom_of_room b (fuel + 1) hrst (State.latch_block ..) hroom 0

-- GETB (R70, R188).

section Getb
variable {other : Nat → ProducerSide} {s : State} {r : Regs s.cfg.aw} {t : Nat} (c : Nat)

/-- GETB returns the oldest byte in a cycle with one, whatever the producer does in it. -/
theorem getbFrom_of_contentsOf_cons {a : Byte} {q : List Byte} (hrst : (other t).rst = false)
    (hb : s.block = .live r) (hc : contentsOf r = a :: q) (fuel : Nat) :
    ∃ u, getbFrom other t c (fuel + 1) s = .next (some ⟨a, c + 1, u⟩) ∧ u.out.rdAck = true := by
  have hacc : readAccepted r = true := readAccepted_of_contentsOf_cons hc
  rw [getbFrom, driveCycle_live hb (by exact hrst)]
  simp [mergeHalves, hacc, andThen, headByte_of_contentsOf_cons hc]

/-- GETB is turned away at count 0, and the producer's write is accepted. -/
theorem getbFrom_of_empty_of_enqueue {d : Byte} (hother : other t = ⟨false, .enqueue d⟩) (hb : s.block = .live r)
    (hempty : r.count.toNat = 0) (fuel : Nat) :
    getbFrom other t c (fuel + 1) s =
      getbFrom other (t + 1) (c + 1) fuel (s.latch (portEdge true false d r) (outputsOf true false r)) := by
  obtain ⟨hw, hr⟩ := accepted_of_count_eq_zero hempty
  rw [getbFrom, hother, driveCycle_live hb rfl]
  simp [mergeHalves, hw, hr, andThen]

/-- GETB is still blocked after any number of cycles at count 0 with the producer idle. -/
theorem getbFrom_add_of_empty (n : Nat) (hother : ∀ u, t ≤ u → u < t + n → other u = ⟨false, .idle⟩)
    (hb : s.block = .live r) (hempty : r.count.toNat = 0) :
    ∃ o : Output s.cfg.aw, ∀ fuel,
      getbFrom other t c (n + fuel) s = getbFrom other (t + n) (c + n) fuel { s with out := o } := by
  have hacc : readAccepted r = false := (accepted_of_count_eq_zero hempty).2
  induction n generalizing s t c with
  | zero => exact ⟨s.out, fun fuel => by rw [Nat.zero_add]; rfl⟩
  | succ n ih =>
    obtain ⟨o, hrun⟩ := ih (s := { s with out := outputsOf false false r }) (t := t + 1) (c + 1)
      (fun u hu hu' => hother u (by omega) (by omega)) hb hempty hacc
    refine ⟨o, fun fuel => ?_⟩
    rw [Nat.add_right_comm n 1, getbFrom, hother t (Nat.le_refl t) (by omega),
      driveCycle_idle hb rfl rfl (by simp [hacc])]
    simpa [andThen, Nat.add_assoc, Nat.add_comm 1] using hrun fuel

/-- GETB watched from its first cycle, past the cycles it is surely blocked in. -/
theorem getb_add_of_empty (n : Nat) (hother : ∀ u, u < n → other u = ⟨false, .idle⟩) (hb : s.block = .live r)
    (hempty : r.count.toNat = 0) :
    ∃ o : Output s.cfg.aw, ∀ fuel, getb other (n + fuel) s = getbFrom other n n fuel { s with out := o } := by
  simpa [getb] using getbFrom_add_of_empty (t := 0) 0 n (fun u _ hu => hother u (by omega)) hb hempty

end Getb

/-- Settles O50: with a byte stored GETB returns the head byte; at count 0 it waits until the producer has written the
byte that is then the head. -/
theorem getbEndsWhenAByteComes : Obligations.GetbEndsWhenAByteComes := by
  intro other d s r fuel hb hinv
  refine ⟨fun hrst hstored => ?stored, fun hempty hidle => ?blocked, fun hempty hidle hwrite hrst => ?written⟩
  case stored =>
    obtain ⟨q, hc⟩ := contentsOf_eq_head_cons hstored
    exact getbFrom_of_contentsOf_cons 0 hrst hb hc fuel
  case blocked =>
    obtain ⟨o, hwait⟩ := getb_add_of_empty fuel hidle hb hempty
    exact hwait 0
  case written =>
    obtain ⟨o, hwait⟩ := getb_add_of_empty fuel hidle hb hempty
    have hc := contentsOf_portEdge_of_empty hinv hempty d
    rw [hwait 2, getbFrom_of_empty_of_enqueue (s := { s with out := o }) _ hwrite hb hempty]
    exact getbFrom_of_contentsOf_cons (fuel + 1) hrst (State.latch_block ..) hc 0

end Sys2Proof.Machine
end

section
/-! PROOFS. The assembler on the canonical text (30_encoding.md R68): a line of two words is split at the blank between
them, and the two hexadecimal digits of a byte are read back as it. -/

namespace Sys2Proof.Machine

-- Lines of two words (R68; log entry 13).

/-- A character that neither separates words nor begins a quote or a comment. -/
def isPlainChar (c : Char) : Bool := !isBlankChar c && c != quoteChar && c != commentChar

/-- Text without quotes and comments is kept whole. -/
theorem stripComment_eq_self (t : List Char) (h : ∀ c ∈ t, c ≠ quoteChar ∧ c ≠ commentChar) : stripComment t = t := by
  induction t using stripComment.induct with
  | case1 => rfl
  | case2 q c e rest hquoted => simp [h q] at hquoted
  | case3 q c e rest _ hcomment => simp [h q] at hcomment
  | case4 q c e rest hquoted hcomment ih =>
    rw [stripComment, if_neg hquoted, if_neg hcomment, ih fun a ha => h a (List.mem_cons_of_mem q ha)]
  | case5 c rest _ hcomment => simp [h c] at hcomment
  | case6 c rest hshort hcomment ih =>
    rw [stripComment, if_neg hcomment, ih fun a ha => h a (List.mem_cons_of_mem c ha)]
    exact hshort

/-- Text that neither begins nor ends with a blank is kept whole. -/
theorem trimBlanks_eq_self {t : List Char} (hne : t ≠ []) (hhead : isBlankChar (t.head hne) = false)
    (hlast : isBlankChar (t.getLast hne) = false) : trimBlanks t = t := by
  have hleft : t.dropWhile isBlankChar = t :=
    List.dropWhile_eq_self_iff.mpr fun _ => by rw [← List.head_eq_getElem hne, hhead]; exact Bool.false_ne_true
  have hright : t.rdropWhile isBlankChar = t :=
    List.rdropWhile_eq_self_iff.mpr fun _ => by rw [hlast]; exact Bool.false_ne_true
  exact (congrArg (List.rdropWhile isBlankChar) hleft).trans hright

theorem trimBlanks_space_cons (t : List Char) : trimBlanks (' ' :: t) = trimBlanks t := rfl

/-- A word of a line: at least one character, and each one plain. -/
def IsPlainWord (t : List Char) : Prop := t ≠ [] ∧ ∀ c ∈ t, isPlainChar c = true

theorem isPlainChar_iff {c : Char} :
    isPlainChar c = true ↔ isBlankChar c = false ∧ c ≠ quoteChar ∧ c ≠ commentChar := by
  simp [isPlainChar, and_assoc]

section Words
variable {m op : List Char} (hm : IsPlainWord m) (hop : IsPlainWord op)
include hm

theorem IsPlainWord.not_blank {c : Char} (hc : c ∈ m) : isBlankChar c = false := (isPlainChar_iff.mp (hm.2 c hc)).1

theorem IsPlainWord.trimBlanks_eq : trimBlanks m = m :=
  trimBlanks_eq_self hm.1 (hm.not_blank (List.head_mem hm.1)) (hm.not_blank (List.getLast_mem hm.1))

theorem takeWhile_word : (m ++ ' ' :: op).takeWhile (fun c => !isBlankChar c) = m := by
  rw [List.takeWhile_append_of_pos fun c hc => by rw [hm.not_blank hc]; rfl]
  exact List.append_nil m

theorem dropWhile_word : (m ++ ' ' :: op).dropWhile (fun c => !isBlankChar c) = ' ' :: op :=
  List.dropWhile_append_of_pos fun c hc => by rw [hm.not_blank hc]; rfl

include hop

/-- A line of two words has no comment and no blanks around it. -/
theorem trimBlanks_stripComment_words : trimBlanks (stripComment (m ++ ' ' :: op)) = m ++ ' ' :: op := by
  rw [stripComment_eq_self]
  · apply trimBlanks_eq_self (by simp)
    · rw [List.head_append_of_ne_nil hm.1]
      exact hm.not_blank (List.head_mem hm.1)
    · rw [List.getLast_append_of_ne_nil _ (by simp), List.getLast_cons hop.1]
      exact hop.not_blank (List.getLast_mem hop.1)
  · intro c hc
    rw [List.mem_append, List.mem_cons] at hc
    obtain hc | rfl | hc := hc
    · exact (isPlainChar_iff.mp (hm.2 c hc)).2
    · decide
    · exact (isPlainChar_iff.mp (hop.2 c hc)).2

/-- A line of two words is the command they write. -/
theorem parseLine_words {c : AsmCommand} {i : Instr} (hparse : parseCommand (m.map upperChar) op = .ok c)
    (hasm : assembleCommand c = .ok i) : parseLine (m ++ ' ' :: op) = .ok (some i) := by
  have hne : m ++ ' ' :: op ≠ [] := by simp
  simp only [parseLine, trimBlanks_stripComment_words hm hop, if_neg hne, takeWhile_word hm, dropWhile_word hm,
    trimBlanks_space_cons, hop.trimBlanks_eq, hparse, hasm]

end Words

-- A byte in hex (R68).

theorem digitValue_hexDigit {v : Nat} (hv : v < 16) : digitValue (hexDigit v) = some v := by
  revert v
  decide

theorem isPlainChar_hexDigit {v : Nat} (hv : v < 16) : isPlainChar (hexDigit v) = true := by
  revert v
  decide

section HexByte
variable (d : Byte)

theorem hexDigits_lt : d.toNat / 16 < 16 ∧ d.toNat % 16 < 16 :=
  ⟨Nat.div_lt_of_lt_mul d.isLt, Nat.mod_lt _ (by decide)⟩

theorem isPlainWord_hexByte : IsPlainWord (hexByte d) := by
  obtain ⟨hhi, hlo⟩ := hexDigits_lt d
  have hzero : isPlainChar '0' = true := by decide
  have hx : isPlainChar 'x' = true := by decide
  exact ⟨by simp [hexByte], by simp [hexByte, hzero, hx, isPlainChar_hexDigit hhi, isPlainChar_hexDigit hlo]⟩

/-- The two digits are read back as the byte. -/
theorem parseImmediate_hexByte : parseImmediate (hexByte d) = some d.toNat := by
  obtain ⟨hhi, hlo⟩ := hexDigits_lt d
  simp only [parseImmediate, hexByte, parseQuoted, parseNumber, numberFrom, digitValue_hexDigit hhi,
    digitValue_hexDigit hlo, if_pos hhi, if_pos hlo, Nat.zero_mul, Nat.zero_add, Nat.div_add_mod']

/-- An immediate that is a byte is accepted as that byte. -/
theorem assembleCommand_toNat :
    assembleCommand (.enq d.toNat) = .ok (.enq d) ∧ assembleCommand (.enqdeq d.toNat) = .ok (.enqdeq d) := by
  have hok : immOk d.toNat = true := decide_eq_true d.isLt
  simp [assembleCommand, hok]

end HexByte

/-- The canonical text of a command is read back as it (R68). -/
theorem parseLine_renderInstr (i : Instr) : parseLine (renderInstr i) = .ok (some i) := by
  cases i with
  | nop => rfl
  | enq d =>
    have hparse : parseCommand ['E', 'N', 'Q'] (hexByte d) = .ok (.enq d.toNat) := by
      simp [parseCommand, parseImmediate_hexByte]
    exact parseLine_words (m := ['E', 'N', 'Q']) ⟨by simp, List.all_eq_true.mp rfl⟩ (isPlainWord_hexByte d) hparse
      (assembleCommand_toNat d).1
  | deq => rfl
  | enqdeq d =>
    have hparse : parseCommand ['E', 'N', 'Q', 'D', 'E', 'Q'] (hexByte d) = .ok (.enqdeq d.toNat) := by
      simp [parseCommand, parseImmediate_hexByte]
    exact parseLine_words (m := ['E', 'N', 'Q', 'D', 'E', 'Q']) ⟨by simp, List.all_eq_true.mp rfl⟩
      (isPlainWord_hexByte d) hparse (assembleCommand_toNat d).2
  | rst => rfl

/-- An immediate that is no byte is refused by name (R68). -/
theorem assembleCommand_of_not_byte {v : Nat} (hv : 256 ≤ v) :
    assembleCommand (.enq v) = .error (.notAByte v) ∧ assembleCommand (.enqdeq v) = .error (.notAByte v) := by
  have hno : immOk v = false := decide_eq_false (Nat.not_lt.mpr hv)
  simp [assembleCommand, hno]

/-- Settles O7: `parseLine` inverts `renderInstr`, and `assemble` encodes what it answers. -/
theorem assemblerReadsItsText : Obligations.AssemblerReadsItsText := by
  refine ⟨fun i => ⟨parseLine_renderInstr i, ?_⟩, fun d => ⟨rfl, rfl⟩, fun v hv => assembleCommand_of_not_byte hv⟩
  simp only [assemble, parseLine_renderInstr]

end Sys2Proof.Machine
end

section
/-! PROOFS. RST, NOP and what an agent may rely on between two cycles (40_control.md R80 to R85; 70_reset_and_hazards.md
R184): a driven reset cycle, runs of NOP words, the count seen by an idle port, and transactions across a reset. -/

namespace Sys2Proof.Machine

-- A cycle with reset (R80, R81, R182).

/-- A driven cycle with `rst = 1` ends in the reset registers, from any block and whatever the ports carry (R81). -/
theorem driveCycle_rst (s : State) {i : Input} (hi : i.rst = true) :
    driveCycle i s =
      .next { s.latch (Regs.reset s.cfg.aw) (resetOutputs s) with outputDraws := drawsAfterReset s } := by
  have hrst : rstBit i.word = true := by simp [Input.word, hi]
  rw [driveCycle, decode_of_rstBit hrst, exec_rst]

/-- Only a reset cycle in state `Unreset` draws (R182). -/
theorem drawsAfterReset_live {s : State} {r : Regs s.cfg.aw} (hb : s.block = .live r) :
    drawsAfterReset s = s.outputDraws := by
  simp [drawsAfterReset, hb]

/-- Settles O11: bit 10 selects RST, which answers the reset registers and shows LENGTH's occupancy. -/
theorem rstResult : Obligations.RstResult := by
  refine ⟨fun w hw => decode_of_rstBit (and_0x400_eq_iff.mp hw), fun s => ?_⟩
  obtain ⟨hmem, hwr, hrd, hcount, hocc⟩ := Regs.reset_values s.cfg.aw
  exact ⟨Regs.reset s.cfg.aw, drawsAfterReset s, exec_rst s, hmem, hwr, hrd, hcount, hocc,
    fun r hb => ⟨drawsAfterReset_live hb, lengthOf_live hb⟩⟩

/-- Settles O12: both cycles are reset cycles, and each ends in the reset registers from wherever it starts. -/
theorem rstCorners : Obligations.RstCorners := fun s _ hi =>
  ⟨Regs.reset s.cfg.aw, resetOutputs s, _, drawsAfterReset s, _, driveCycle_rst s hi, rfl, rfl, rfl,
    contentsOf_reset s.cfg.aw, rfl, readCell_nil, driveCycle_rst _ hi⟩

-- Runs of NOP words (R82).

theorem core_run_succ {s t : State} (n : Nat) (hstep : step s = .next t) :
    core.run (n + 1) s = core.run n t := by
  have hcore : core.step s = .next t := hstep
  simp only [Host.Core.run, hcore]

theorem decode_of_nop_word {w : CmdWord} (h : w &&& 0x700 = 0x000) : decode w = .nop :=
  decode_of_and_0x700 (rd := false) (wr := false) h

section Nop
variable {s : State} {r : Regs s.cfg.aw} (hb : s.block = .live r)
include hb

/-- NOP changes nothing but the output ports. -/
theorem exec_nop_live : exec .nop s = .next { s with out := outputsOf false false r } := by
  rw [exec, execNop, withRegs_live hb, State.latch_of_block hb]

/-- A cycle with a NOP word takes the word and shows NOP's outputs, whatever the ports showed before. -/
theorem step_nop_word {w : CmdWord} (hw : w &&& 0x700 = 0x000) (ws : List CmdWord) (o : Output s.cfg.aw) :
    step { s with inputs := w :: ws, out := o } =
      .next { s with inputs := ws, out := outputsOf false false r } := by
  rw [step, fetchWord_of_inputs_cons rfl, consumeWord_of_inputs_cons rfl, decode_of_nop_word hw]
  exact exec_nop_live (s := { s with inputs := ws, out := o }) hb

/-- NOP's outputs, once shown, are shown through a run of NOP words of any length. -/
theorem run_nop_words (ws rest : List CmdWord) (hws : ∀ w ∈ ws, w &&& 0x700 = 0x000) :
    core.run ws.length { s with inputs := ws ++ rest, out := outputsOf false false r } =
      .next { s with inputs := rest, out := outputsOf false false r } := by
  induction ws with
  | nil => rfl
  | cons w ws ih =>
    obtain ⟨hw, hws⟩ := List.forall_mem_cons.mp hws
    exact (core_run_succ ws.length (step_nop_word hb hw (ws ++ rest) _)).trans (ih hws)

end Nop

/-- Settles O16: the first NOP word shows NOP's outputs, and the rest of the run keeps them. -/
theorem nopResult : Obligations.NopResult := by
  refine ⟨fun w => decode_of_nop_word, ?_⟩
  rintro s r hb o rfl
  refine ⟨exec_nop_live hb, fun ws rest hne hws => ?_⟩
  cases ws with
  | nil => exact absurd rfl hne
  | cons w ws =>
    obtain ⟨hw, hws⟩ := List.forall_mem_cons.mp hws
    exact (core_run_succ ws.length (step_nop_word hb hw (ws ++ rest) s.out)).trans (run_nop_words hb ws rest hws)

-- The count as an idle agent finds it (R84 (d), R85).

section SafeBound
variable {aw : Nat} {r r' : Regs aw}

/-- An edge without a write does not raise the count. -/
theorem portEdge_count_le (hinv : r.Inv) (ra : Bool) (d : Byte) :
    (portEdge false ra d r).count.toNat ≤ r.count.toNat := by
  rw [portEdge_count_toNat hinv d (by nofun)]
  exact Nat.sub_le _ _

/-- An edge without a read does not lower the count. -/
theorem le_portEdge_count (hinv : r.Inv) {wa : Bool} (d : Byte) (hw : wa = true → r.count.toNat ≠ 2 ^ aw) :
    r.count.toNat ≤ (portEdge wa false d r).count.toNat := by
  rw [portEdge_count_toNat hinv d hw]
  exact Nat.le_add_right _ _

/-- Where a write is accepted, it is accepted at every smaller count. -/
theorem writeAccepted_of_count_le (hinv : r.Inv) (hacc : writeAccepted r = true)
    (hle : r'.count.toNat ≤ r.count.toNat) : writeAccepted r' = true := by
  obtain ⟨-, hC, -⟩ := hinv
  rw [writeAccepted_iff] at hacc ⊢
  omega

/-- Where a read is accepted, it is accepted at every greater count. -/
theorem readAccepted_of_le_count (hacc : readAccepted r = true) (hle : r.count.toNat ≤ r'.count.toNat) :
    readAccepted r' = true := by
  rw [readAccepted_iff] at hacc ⊢
  omega

end SafeBound

/-- The sample `full = 0` says that a write is accepted, `empty = 0` that a read is (R85, R145). -/
theorem accepted_eq_not_lengthOf {s : State} {r : Regs s.cfg.aw} (hb : s.block = .live r) :
    writeAccepted r = !(lengthOf s).full ∧ readAccepted r = !(lengthOf s).empty := by
  rw [lengthOf_live hb]
  exact ⟨rfl, rfl⟩

/-- Settles O36: the first cycle is an edge without the agent's own port, which moves the count only away from the end
the agent was told it is not at. -/
theorem sampledCountIsASafeBound : Obligations.SampledCountIsASafeBound := by
  intro i j s r hb hinv hi hj
  obtain ⟨hfull, hempty⟩ := accepted_eq_not_lengthOf hb
  have hfall : i.wrEn = false →
      (portEdge (i.wrEn && writeAccepted r) (i.rdEn && readAccepted r) i.wrData r).count.toNat ≤ r.count.toNat := by
    intro hwr
    rw [hwr]
    exact portEdge_count_le hinv _ _
  have hrise : i.rdEn = false →
      r.count.toNat ≤ (portEdge (i.wrEn && writeAccepted r) (i.rdEn && readAccepted r) i.wrData r).count.toNat := by
    intro hrd
    rw [hrd]
    exact le_portEdge_count hinv _ fun hw => (writeAccepted_iff r).mp (Bool.and_elim_right hw)
  refine ⟨_, _, _, driveCycle_live hb hi, driveCycle_live (State.latch_block ..) hj, hfall, hrise,
    fun hwr hreq hroom => ?write, fun hrd hreq hbyte => ?read⟩
  case write =>
    have hacc := writeAccepted_of_count_le hinv (by rw [hfull, hroom]; rfl) (hfall hwr)
    exact Bool.and_eq_true_iff.mpr ⟨hreq, hacc⟩
  case read =>
    have hacc := readAccepted_of_le_count (by rw [hempty, hbyte]; rfl) (hrise hrd)
    exact Bool.and_eq_true_iff.mpr ⟨hreq, hacc⟩

-- Transactions across a reset (R81, R184).

section Across
variable {s u : State}

/-- A live block takes any cycle and stays live; a reset cycle acks neither port and leaves no contents. -/
theorem exists_driveCycle_live {r : Regs s.cfg.aw} (hb : s.block = .live r) (i : Input) :
    ∃ (t : State) (r' : Regs t.cfg.aw), driveCycle i s = .next t ∧ t.block = .live r' ∧
      (i.rst = true → t.out.wrAck = false ∧ t.out.rdAck = false ∧ contentsOf r' = []) := by
  cases hi : i.rst with
  | true => exact ⟨_, _, driveCycle_rst s hi, rfl, fun _ => ⟨rfl, rfl, contentsOf_reset s.cfg.aw⟩⟩
  | false => exact ⟨_, _, driveCycle_live hb hi, rfl, by nofun⟩

/-- ENQN goes on after an acked cycle and ends at one that is not acked. -/
theorem enqnFrom_cons {other : Nat → ConsumerSide} {t : Nat} {b : Byte}
    (h : driveCycle (mergeHalves (other t).rst (.enqueue b) (other t).read) s = .next u) (k c : Nat)
    (bs : List Byte) :
    enqnFrom other t k c (b :: bs) s =
      if u.out.wrAck then enqnFrom other (t + 1) (k + 1) (c + 1) bs u else .next ⟨k, c + 1, u⟩ := by
  rw [enqnFrom, h, andThen]

/-- DEQN goes on after an acked cycle and ends at one that is not acked. -/
theorem deqnFrom_succ {other : Nat → ProducerSide} {t : Nat}
    (h : driveCycle (mergeHalves (other t).rst (other t).write .dequeue) s = .next u) (dest : List Byte) (c n : Nat) :
    deqnFrom other t dest c (n + 1) s =
      if u.out.rdAck then deqnFrom other (t + 1) (dest ++ [u.out.rdData]) (c + 1) n u
      else .next ⟨dest, c + 1, u⟩ := by
  rw [deqnFrom, h, andThen]

/-- ENQN's remaining bytes, with a reset `j` cycles on: an acked cycle brings the reset one cycle nearer, and the reset
cycle itself is not acked. -/
theorem enqnFrom_rst {other : Nat → ConsumerSide} (bs : List Byte) {r : Regs s.cfg.aw} (hb : s.block = .live r)
    (t k c j : Nat) (hrst : (other (t + j)).rst = true) :
    ∃ f : Finished Nat, enqnFrom other t k c bs s = .next f ∧ f.result ≤ k + j ∧ f.cycles ≤ c + (j + 1) ∧
      (f.cycles = c + (j + 1) → ∃ r', f.state.block = .live r' ∧ contentsOf r' = []) := by
  induction bs generalizing s t k c j with
  | nil => exact ⟨⟨k, c, s⟩, rfl, Nat.le_add_right k j, Nat.le_add_right c (j + 1), by simp⟩
  | cons b bs ih =>
    obtain ⟨u, r', hdrive, hu, hreset⟩ :=
      exists_driveCycle_live hb (mergeHalves (other t).rst (.enqueue b) (other t).read)
    rw [enqnFrom_cons hdrive]
    cases j with
    | zero =>
      obtain ⟨hack, -, hnil⟩ := hreset hrst
      rw [hack]
      exact ⟨_, rfl, Nat.le_refl k, Nat.le_refl (c + 1), fun _ => ⟨r', hu, hnil⟩⟩
    | succ j =>
      cases u.out.wrAck with
      | false => exact ⟨⟨k, c + 1, u⟩, rfl, Nat.le_add_right k _, by simp, by simp⟩
      | true =>
        rw [← Nat.add_assoc, Nat.add_right_comm] at hrst
        obtain ⟨f, hrun, hresult, hcycles, hempty⟩ := ih hu (t + 1) (k + 1) (c + 1) j hrst
        exact ⟨f, hrun, by omega, by omega, fun h => hempty (by omega)⟩

/-- DEQN's remaining bytes, with a reset `j` cycles on: as for ENQN. -/
theorem deqnFrom_rst {other : Nat → ProducerSide} (n : Nat) {r : Regs s.cfg.aw} (hb : s.block = .live r)
    (t : Nat) (dest : List Byte) (c j : Nat) (hrst : (other (t + j)).rst = true) :
    ∃ f : Finished (List Byte), deqnFrom other t dest c n s = .next f ∧ f.result.length ≤ dest.length + j ∧
      f.cycles ≤ c + (j + 1) ∧
      (f.cycles = c + (j + 1) → ∃ r', f.state.block = .live r' ∧ contentsOf r' = []) := by
  induction n generalizing s t dest c j with
  | zero => exact ⟨⟨dest, c, s⟩, rfl, Nat.le_add_right _ j, Nat.le_add_right c (j + 1), by simp⟩
  | succ n ih =>
    obtain ⟨u, r', hdrive, hu, hreset⟩ :=
      exists_driveCycle_live hb (mergeHalves (other t).rst (other t).write .dequeue)
    rw [deqnFrom_succ hdrive]
    cases j with
    | zero =>
      obtain ⟨-, hack, hnil⟩ := hreset hrst
      rw [hack]
      exact ⟨_, rfl, Nat.le_refl _, Nat.le_refl (c + 1), fun _ => ⟨r', hu, hnil⟩⟩
    | succ j =>
      cases u.out.rdAck with
      | false => exact ⟨⟨dest, c + 1, u⟩, rfl, Nat.le_add_right _ _, by simp, by simp⟩
      | true =>
        rw [← Nat.add_assoc, Nat.add_right_comm] at hrst
        obtain ⟨f, hrun, hresult, hcycles, hempty⟩ := ih hu (t + 1) (dest ++ [u.out.rdData]) (c + 1) j hrst
        rw [List.length_append, List.length_singleton] at hresult
        exact ⟨f, hrun, by omega, by omega, fun h => hempty (by omega)⟩

end Across

/-- Settles O48: `enqnFrom_rst` and `deqnFrom_rst` from the first cycle on. -/
theorem resetStopsTransactions : Obligations.ResetStopsTransactions := by
  refine ⟨fun other bs s r j hb hrst => ?enqn, fun other n s r j hb hrst => ?deqn⟩
  case enqn => simpa [enqn] using enqnFrom_rst bs hb 0 0 0 j (by simpa using hrst)
  case deqn => simpa [deqn] using deqnFrom_rst n hb 0 [] 0 j (by simpa using hrst)

end Sys2Proof.Machine
end

section
/-! PROOFS. Enqueue (41_enqueue.md R100 to R107): the two outcomes of ENQ, the bounds on ENQN against any consumer, and
the capacity boundary. -/

namespace Sys2Proof.Machine

-- One ENQ (R100 to R102).

section Enq
variable {s : State} {r : Regs s.cfg.aw}

/-- With room ENQ is one edge of the write port alone. -/
theorem exec_enq_of_room (hb : s.block = .live r) (hroom : r.count.toNat ≠ 2 ^ s.cfg.aw) (d : Byte) :
    exec (.enq d) s = .next (s.latch (portEdge true false d r) (outputsOf true false r)) := by
  have hacc : wantsWrite (.enq d) r = true := (writeAccepted_iff r).mpr hroom
  rw [exec_live (by nofun) hb, hacc]
  rfl

/-- At capacity ENQ changes nothing but the output ports. -/
theorem exec_enq_of_full (hb : s.block = .live r) (hfull : r.count.toNat = 2 ^ s.cfg.aw) (d : Byte) :
    exec (.enq d) s = .next { s with out := outputsOf false false r } := by
  have hacc : wantsWrite (.enq d) r = false := (accepted_of_count_eq_capacity hfull).1
  rw [exec_live (by nofun) hb, hacc, wantsRead_of_nop_or_enq r (.inr ⟨d, rfl⟩), portEdge_idle,
    State.latch_of_block hb]

end Enq

section WriteEdge
variable {aw : Nat} {r : Regs aw}

/-- Each register after an accepted write: the tail cell, `wr_ptr` and `count` are written, `rd_ptr` is not (R100). -/
theorem portEdge_write_registers (hinv : r.Inv) (hroom : r.count.toNat ≠ 2 ^ aw) (d : Byte) :
    (∀ a, readCell (portEdge true false d r).mem a = if a = r.wrPtr.toNat then d else readCell r.mem a) ∧
      (portEdge true false d r).wrPtr.toNat = (r.wrPtr.toNat + 1) % 2 ^ aw ∧
      (portEdge true false d r).rdPtr = r.rdPtr ∧ (portEdge true false d r).count.toNat = r.count.toNat + 1 := by
  refine ⟨fun a => ?_, nextIndex_toNat aw r.wrPtr, rfl, portEdge_count_toNat hinv d fun _ => hroom⟩
  rw [readCell_portEdge hinv]
  simp

end WriteEdge

theorem decode_of_enq_word {w : CmdWord} (h : w &&& 0x700 = 0x100) : decode w = .enq (w.extractLsb' 0 8) :=
  (decode_of_and_0x700 (rd := false) (wr := true) h).trans (congrArg Instr.enq (dataField_eq_setWidth w).symm)

/-- Settles O17: with room ENQ is a write edge, and at capacity, where the indices meet, it writes no register. -/
theorem enqResult : Obligations.EnqResult := by
  refine ⟨fun w => decode_of_enq_word, fun s r d hb hinv => ⟨fun hlt => ?room, fun hfull => ?full⟩⟩
  case room =>
    have hroom : r.count.toNat ≠ 2 ^ s.cfg.aw := Nat.ne_of_lt hlt
    obtain ⟨hmem, hwr, hrd, hcount⟩ := portEdge_write_registers hinv hroom d
    refine ⟨portEdge true false d r, ?_, hmem, hwr, hrd, hcount, hcount, ?_, ?_⟩
    · rw [exec_enq_of_room hb hroom, outputsOf, isFull, isEmpty, decide_eq_false hroom]
      rfl
    · rw [occupancyOf_empty, isEmpty, hcount]
      rfl
    · rw [occupancyOf_full, isFull, hcount]
  case full =>
    have hne : r.count.toNat ≠ 0 := hfull ▸ (Nat.two_pow_pos s.cfg.aw).ne'
    refine ⟨((indexEqualityIsEmptyOrFull s.cfg.aw r hinv).1).mpr (.inr hfull), ?_⟩
    rw [exec_enq_of_full hb hfull, outputsOf, isFull, isEmpty, decide_eq_true hfull, decide_eq_false hne]
    rfl

/-- Settles O18: the write edge fills the tail cell, and no stored byte's index is the tail's. -/
theorem tailCellHoldsNoStoredByte : Obligations.TailCellHoldsNoStoredByte := by
  intro s r d hb hinv hlt
  have hroom : r.count.toNat ≠ 2 ^ s.cfg.aw := Nat.ne_of_lt hlt
  obtain ⟨hmem, hwr, hrd, hcount⟩ := portEdge_write_registers hinv hroom d
  have hother : ∀ a, a ≠ r.wrPtr.toNat → readCell (portEdge true false d r).mem a = readCell r.mem a := fun a =>
    readCell_portEdge_of_ne_tail true false d r
  exact ⟨fun j hj => (storedIndex_ne_tail hinv hlt hj).symm, _, _, exec_enq_of_room hb hroom d, rfl,
    (hmem _).trans (if_pos rfl), hother, hwr, hcount, hrd, fun j hj => hother _ (storedIndex_ne_tail hinv hlt hj)⟩

-- ENQN against any consumer (R104, R105).

section Bounds
variable {other : Nat → ConsumerSide} {s : State} {r : Regs s.cfg.aw}

/-- ENQN's remaining bytes against any consumer and any resets: at most one cycle is spent on each, and if they are not
all stored, the last cycle is the one not acked. -/
theorem exists_enqnFrom (bs : List Byte) (hb : s.block = .live r) (t k c : Nat) :
    ∃ f : Finished Nat, enqnFrom other t k c bs s = .next f ∧ k ≤ f.result ∧ f.result ≤ k + bs.length ∧
      f.cycles ≤ c + bs.length ∧
      (f.result < k + bs.length → f.cycles + k = f.result + (c + 1) ∧ f.state.out.wrAck = false) := by
  induction bs generalizing s t k c with
  | nil => exact ⟨⟨k, c, s⟩, rfl, Nat.le_refl k, Nat.le_refl k, Nat.le_refl c, by simp⟩
  | cons b bs ih =>
    obtain ⟨u, r', hdrive, hu, -⟩ :=
      exists_driveCycle_live hb (mergeHalves (other t).rst (.enqueue b) (other t).read)
    rw [enqnFrom_cons hdrive, List.length_cons]
    cases hack : u.out.wrAck with
    | false =>
      exact ⟨⟨k, c + 1, u⟩, rfl, Nat.le_refl k, Nat.le_add_right k _, by simp, fun _ => ⟨Nat.add_comm _ _, hack⟩⟩
    | true =>
      obtain ⟨f, hrun, hleast, hresult, hcycles, hshort⟩ := ih hu (t + 1) (k + 1) (c + 1)
      refine ⟨f, hrun, by omega, by omega, by omega, fun h => ?_⟩
      obtain ⟨hend, hlast⟩ := hshort (by omega)
      exact ⟨by omega, hlast⟩

/-- Without reset a byte with room for it is stored and ENQN goes on, whatever the consumer does in the cycle; the count
is at most one higher. -/
theorem enqnFrom_cons_of_room_of_not_rst {t : Nat} (hrst : (other t).rst = false) (hb : s.block = .live r)
    (hinv : r.Inv) (hroom : r.count.toNat ≠ 2 ^ s.cfg.aw) (k c : Nat) (b : Byte) (bs : List Byte) :
    ∃ (r' : Regs s.cfg.aw) (o : Output s.cfg.aw), r'.Inv ∧ r'.count.toNat ≤ r.count.toNat + 1 ∧
      enqnFrom other t k c (b :: bs) s = enqnFrom other (t + 1) (k + 1) (c + 1) bs (s.latch r' o) := by
  have hacc : writeAccepted r = true := (writeAccepted_iff r).mpr hroom
  have hdrive := driveCycle_live hb (i := mergeHalves (other t).rst (.enqueue b) (other t).read) hrst
  rw [hacc] at hdrive
  refine ⟨_, _, portEdge_inv hinv b (fun _ => hroom) fun hread => ?_, ?_, enqnFrom_cons hdrive k c bs⟩
  · exact (readAccepted_iff r).mp (Bool.and_elim_right hread)
  · rw [portEdge_count_toNat hinv b fun _ => hroom]
    exact Nat.sub_le _ _

/-- Without reset ENQN stores at least what fits at its start: a read only makes more room. -/
theorem le_result_of_enqnFrom (hrst : ∀ t, (other t).rst = false) (bs : List Byte) (hb : s.block = .live r)
    (hinv : r.Inv) (t k c : Nat) {f : Finished Nat} (hrun : enqnFrom other t k c bs s = .next f) :
    k + min bs.length (2 ^ s.cfg.aw - r.count.toNat) ≤ f.result := by
  induction bs generalizing s t k c with
  | nil =>
    obtain rfl : ⟨k, c, s⟩ = f := Host.Outcome.next.inj hrun
    simp
  | cons b bs ih =>
    by_cases hfull : r.count.toNat = 2 ^ s.cfg.aw
    · obtain ⟨f', hrun', hle, -⟩ := exists_enqnFrom (other := other) (b :: bs) hb t k c
      obtain rfl := Host.Outcome.next.inj (hrun'.symm.trans hrun)
      omega
    · obtain ⟨r', o, hinv', hcount, hstep⟩ := enqnFrom_cons_of_room_of_not_rst (hrst t) hb hinv hfull k c b bs
      have hrest : k + 1 + min bs.length (2 ^ s.cfg.aw - r'.count.toNat) ≤ f.result :=
        ih (s := s.latch r' o) rfl hinv' (t + 1) (k + 1) (c + 1) (hstep.symm.trans hrun)
      rw [List.length_cons]
      omega

end Bounds

/-- Settles O43: the run exists with its upper bounds, `le_result_of_enqnFrom` bounds it below, and against an idle
consumer the run is `enqnFrom_quiet`'s. -/
theorem enqnBounds : Obligations.EnqnBounds := by
  intro other bs s r hb hinv
  obtain ⟨f, hrun, -, hresult, hcycles, hshort⟩ := exists_enqnFrom (other := other) bs hb 0 0 0
  simp only [Nat.zero_add, Nat.add_zero] at hresult hcycles hshort
  refine ⟨f, hrun, hresult, hcycles, hshort, fun hrst => ?least, fun hother => ?quiet⟩
  case least => simpa using le_result_of_enqnFrom hrst bs hb hinv 0 0 0 hrun
  case quiet =>
    obtain ⟨r', o, hquiet, -, -⟩ := enqnFrom_quiet hother bs hb hinv 0 0 0 rfl
    obtain rfl := Host.Outcome.next.inj (hquiet.symm.trans hrun)
    exact Nat.zero_add _

-- The capacity boundary (R107).

/-- ENQN into a full FIFO without a read stores nothing and changes the output ports alone. -/
theorem enqn_of_full {other : Nat → ConsumerSide} (hother : ∀ t, other t = ⟨false, .idle⟩) (bs : List Byte)
    {s : State} {r : Regs s.cfg.aw} (hb : s.block = .live r) (hfull : r.count.toNat = 2 ^ s.cfg.aw) :
    ∃ (n : Nat) (o : Output s.cfg.aw), enqn other bs s = .next ⟨0, n, { s with out := o }⟩ := by
  cases bs with
  | nil => exact ⟨0, s.out, rfl⟩
  | cons b bs => exact ⟨1, outputsOf false false r, enqnFrom_cons_of_full (hother 0) hb hfull 0 0 b bs⟩

/-- Settles O46: the run stores the first C bytes, so it leaves a full FIFO, which no later run changes. -/
theorem capacityBoundary : Obligations.CapacityBoundary := by
  intro other bs s r hother hb hinv hempty hlong
  obtain ⟨r', o, hrun, hcont, -⟩ := enqnStoresWhatFits other bs s r (2 ^ s.cfg.aw) hother hb hinv (by omega)
  have hfull : r'.count.toNat = 2 ^ s.cfg.aw := by
    rw [← length_contentsOf, hcont, contentsOf_eq_nil hempty, List.nil_append, List.length_take]
    exact Nat.min_eq_left hlong.le
  refine ⟨_, hrun, rfl, fun more o₁ => ?_⟩
  obtain ⟨n, o₂, hlater⟩ := enqn_of_full hother more (s := s.latch r' o₁) rfl hfull
  exact ⟨_, o₂, hlater, rfl, rfl⟩

end Sys2Proof.Machine
end

section
/-! PROOFS. Dequeue (42_dequeue.md R120 to R127): the two outcomes of DEQ, the bounds on DEQN against any producer, and
the round trip. -/

namespace Sys2Proof.Machine

-- One DEQ (R120 to R122).

theorem decode_of_deq_word {w : CmdWord} (h : w &&& 0x700 = 0x200) : decode w = .deq :=
  decode_of_and_0x700 (rd := true) (wr := false) h

/-- The count update of a read alone, in any registers: nothing is lost, because the count only falls. -/
theorem nextCount_read_toNat {aw : Nat} (n : BitVec (aw + 1)) : (nextCount aw n false true).toNat = n.toNat - 1 := by
  rw [nextCount, BitVec.toNat_ofNat]
  exact Nat.mod_eq_of_lt ((Nat.sub_le _ _).trans_lt n.isLt)

section Deq
variable {s : State} {r : Regs s.cfg.aw}

/-- With a byte stored DEQ is one edge of the read port alone. -/
theorem exec_deq_of_stored (hb : s.block = .live r) (hstored : r.count.toNat ≠ 0) :
    exec .deq s = .next (s.latch (portEdge false true 0 r) (outputsOf false true r)) := by
  have hacc : wantsRead .deq r = true := (readAccepted_iff r).mpr hstored
  rw [exec_live (by nofun) hb, hacc]
  rfl

/-- At count 0 DEQ changes nothing but the output ports. -/
theorem exec_deq_of_empty (hb : s.block = .live r) (hempty : r.count.toNat = 0) :
    exec .deq s = .next { s with out := outputsOf false false r } := by
  have hacc : wantsRead .deq r = false := (accepted_of_count_eq_zero hempty).2
  rw [exec_live (by nofun) hb, hacc, wantsWrite_of_nop_or_deq r (.inr rfl), portEdge_idle,
    State.latch_of_block hb]

end Deq

/-- Settles O19: with a byte stored DEQ is a read edge, which writes `rd_ptr` and `count` alone, and at count 0 it
writes no register. -/
theorem deqResult : Obligations.DeqResult := by
  refine ⟨fun w => decode_of_deq_word, fun s r hb => ⟨fun hstored => ?stored, fun hempty => ?empty⟩⟩
  case stored =>
    have hcount := nextCount_read_toNat r.count
    refine ⟨nextIndex _ r.rdPtr, nextCount _ r.count false true, ?_, nextIndex_toNat _ _, hcount, ?_, fun hinv => ?_⟩
    · rw [exec_deq_of_stored hb hstored, outputsOf, isFull, isEmpty, decide_eq_false hstored]
      rfl
    · rw [occupancyOf_empty, isEmpty, hcount]
      exact decide_eq_decide.mpr (by omega)
    · exact (Bool.not_eq_true' _).mp (writeAccepted_portEdge_of_read hinv 0)
  case empty =>
    have hC : r.count.toNat ≠ 2 ^ s.cfg.aw := hempty ▸ (Nat.two_pow_pos s.cfg.aw).ne
    rw [exec_deq_of_empty hb hempty, outputsOf, isFull, isEmpty, decide_eq_false hC, decide_eq_true hempty]
    rfl

-- DEQN against any producer (R124, R125).

section Bounds
variable {other : Nat → ProducerSide} {s : State} {r : Regs s.cfg.aw}

/-- DEQN's remaining cycles against any producer and any resets: at most one cycle is spent on each byte, and if fewer
come than were asked for, the last cycle is the one not acked. -/
theorem exists_deqnFrom (n : Nat) (hb : s.block = .live r) (t : Nat) (dest : List Byte) (c : Nat) :
    ∃ (got : List Byte) (k : Nat) (u : State), deqnFrom other t dest c n s = .next ⟨dest ++ got, c + k, u⟩ ∧
      got.length ≤ n ∧ k ≤ n ∧ (got.length < n → k = got.length + 1 ∧ u.out.rdAck = false) := by
  induction n generalizing s t dest c with
  | zero => exact ⟨[], 0, s, by rw [List.append_nil]; rfl, Nat.le_refl 0, Nat.le_refl 0, by simp⟩
  | succ n ih =>
    obtain ⟨u, r', hdrive, hu, -⟩ :=
      exists_driveCycle_live hb (mergeHalves (other t).rst (other t).write .dequeue)
    rw [deqnFrom_succ hdrive]
    cases hack : u.out.rdAck with
    | false => exact ⟨[], 1, u, by rw [List.append_nil]; rfl, Nat.zero_le _, by simp, fun _ => ⟨rfl, hack⟩⟩
    | true =>
      obtain ⟨got, k, v, hrun, hlen, hcycles, hshort⟩ := ih hu (t + 1) (dest ++ [u.out.rdData]) (c + 1)
      refine ⟨u.out.rdData :: got, k + 1, v, ?_, Nat.succ_le_succ hlen, Nat.succ_le_succ hcycles, fun h => ?_⟩
      · rw [if_pos rfl, hrun, List.append_assoc, List.singleton_append, Nat.add_assoc, Nat.add_comm 1]
      · obtain ⟨rfl, hlast⟩ := hshort (Nat.lt_of_succ_lt_succ h)
        exact ⟨rfl, hlast⟩

/-- Without reset the oldest byte is returned and DEQN goes on, whatever the producer does in the cycle; a byte written
in it joins the rest at the tail. -/
theorem deqnFrom_succ_of_contentsOf_cons {t : Nat} (hrst : (other t).rst = false) (hb : s.block = .live r)
    (hinv : r.Inv) {a : Byte} {q : List Byte} (hc : contentsOf r = a :: q) (dest : List Byte) (c n : Nat) :
    ∃ (r' : Regs s.cfg.aw) (o : Output s.cfg.aw), r'.Inv ∧ q <+: contentsOf r' ∧
      deqnFrom other t dest c (n + 1) s = deqnFrom other (t + 1) (dest ++ [a]) (c + 1) n (s.latch r' o) := by
  have hacc : readAccepted r = true := readAccepted_of_contentsOf_cons hc
  obtain rfl : headByte r = a := headByte_of_contentsOf_cons hc
  have hstored : r.count.toNat ≠ 0 := count_ne_zero_of_contentsOf_cons hc
  have hdrive := driveCycle_live hb (i := mergeHalves (other t).rst (other t).write .dequeue) hrst
  rw [hacc] at hdrive
  have hroom (h : ((mergeHalves (other t).rst (other t).write .dequeue).wrEn && writeAccepted r) = true) :
      r.count.toNat ≠ 2 ^ s.cfg.aw := (writeAccepted_iff r).mp (Bool.and_elim_right h)
  refine ⟨_, _, ?_, ?_, deqnFrom_succ hdrive dest c n⟩
  · exact portEdge_inv hinv _ hroom fun _ => hstored
  · rw [contentsOf_portEdge hinv _ hroom fun _ => hstored, hc]
    exact List.prefix_append q _

/-- Without reset DEQN returns the bytes `p` stored first at its start, as far as both lists go, and ends early only
after all of them: the producer only writes behind them. -/
theorem deqnFrom_returns_stored (hrst : ∀ t, (other t).rst = false) (n : Nat) (hb : s.block = .live r)
    (hinv : r.Inv) {p : List Byte} (hp : p <+: contentsOf r) (t : Nat) (dest : List Byte) (c : Nat) :
    ∃ (got : List Byte) (k : Nat) (u : State), deqnFrom other t dest c n s = .next ⟨dest ++ got, k, u⟩ ∧
      min n p.length ≤ got.length ∧ got.take p.length = p.take got.length := by
  induction n generalizing s t dest c p with
  | zero => exact ⟨[], c, s, by rw [List.append_nil]; rfl, by simp, by simp⟩
  | succ n ih =>
    cases p with
    | nil =>
      obtain ⟨got, k, u, hrun, -⟩ := exists_deqnFrom (other := other) (n + 1) hb t dest c
      exact ⟨got, _, u, hrun, by simp, by simp⟩
    | cons a p =>
      obtain ⟨q, hq⟩ := hp
      obtain ⟨r', o, hinv', hrest, hstep⟩ :=
        deqnFrom_succ_of_contentsOf_cons (hrst t) hb hinv hq.symm dest c n
      obtain ⟨got, k, u, hrun, hleast, horder⟩ :=
        ih (s := s.latch r' o) rfl hinv' ((List.prefix_append p q).trans hrest) (t + 1) (dest ++ [a]) (c + 1)
      refine ⟨a :: got, k, u, ?_, ?_, ?_⟩
      · rw [hstep, hrun, List.append_assoc, List.singleton_append]
      · rw [List.length_cons, List.length_cons]
        omega
      · rw [List.length_cons, List.length_cons, List.take_succ_cons, List.take_succ_cons, horder]

end Bounds

/-- Settles O45: the run exists with its upper bounds, `deqnFrom_returns_stored` says what it returns of the bytes
stored at the start, and against an idle producer the run is `deqnFrom_quiet`'s. -/
theorem deqnBounds : Obligations.DeqnBounds := by
  intro other n s r hb hinv
  obtain ⟨got, k, u, hrun, hlen, hcycles, hshort⟩ := exists_deqnFrom (other := other) n hb 0 [] 0
  rw [List.nil_append, Nat.zero_add] at hrun
  refine ⟨⟨got, k, u⟩, hrun, hlen, hcycles, hshort, fun hrst => ?order, fun hother => ?quiet⟩
  case order =>
    obtain ⟨got', k', u', hrun', hleast, horder⟩ :=
      deqnFrom_returns_stored hrst n hb hinv (List.prefix_refl (contentsOf r)) 0 [] 0
    obtain ⟨rfl, -, -⟩ := Finished.mk.inj (Host.Outcome.next.inj (hrun'.symm.trans hrun))
    rw [length_contentsOf] at hleast horder
    exact ⟨hleast, horder⟩
  case quiet =>
    obtain ⟨r', o, hquiet, -, -⟩ := deqnFrom_quiet hother n hb hinv 0 [] 0 rfl
    obtain ⟨rfl, -, -⟩ := Finished.mk.inj (Host.Outcome.next.inj (hquiet.symm.trans hrun))
    simp

-- The round trip (R127).

/-- Settles O47: ENQN leaves the sequence as the contents, DEQN takes all of them, and at count 0 it is turned away in
its first cycle. -/
theorem roundTrip : Obligations.RoundTrip := by
  intro consumer producer bs s r hconsumer hproducer hb hinv hempty
  refine ⟨fun hfits => ?trip, fun n hn => ?empty⟩
  case trip =>
    obtain ⟨r₁, o₁, henq, hcont₁, hinv₁⟩ :=
      enqnStoresWhatFits consumer bs s r bs.length hconsumer hb hinv (by omega)
    rw [contentsOf_eq_nil hempty, List.nil_append, List.take_length] at hcont₁
    have hcount₁ : r₁.count.toNat = bs.length := by rw [← length_contentsOf, hcont₁]
    obtain ⟨r₂, o₂, hdeq, hcont₂, -⟩ :=
      deqnReturnsWhatIsStored producer bs.length (s.latch r₁ o₁) r₁ bs.length hproducer rfl hinv₁ (by omega)
    rw [hcont₁, List.drop_length] at hcont₂
    refine ⟨_, _, henq, rfl, hdeq, ?_, ?_⟩
    · rw [hcont₁, List.take_length]
    · exact (isEmpty_iff r₂).mpr (by rw [← length_contentsOf, hcont₂]; rfl)
  case empty =>
    obtain ⟨m, rfl⟩ := Nat.exists_eq_succ_of_ne_zero hn.ne'
    exact ⟨outputsOf false false r, deqnFrom_succ_of_empty (hproducer 0) hb hempty [] 0 m⟩

end Sys2Proof.Machine
end

section
/-! PROOFS. The whole cycle and its laws (43_simultaneous.md R140 to R152): which port acts in a command, the cycle as
the step function of R144, the count and the contents after it, its serial order on the sequential queue, and the
invariant every step keeps. -/

namespace Sys2Proof.Machine

-- Which port acts (R145).

section Acts
variable {aw : Nat} {r : Regs aw} {i : Instr}

/-- A command's write acts only where there is room. -/
theorem count_ne_capacity_of_wantsWrite (h : wantsWrite i r = true) : r.count.toNat ≠ 2 ^ aw := by
  cases i with
  | enq d => exact (writeAccepted_iff r).mp h
  | enqdeq d => exact (writeAccepted_iff r).mp h
  | nop => cases h
  | deq => cases h
  | rst => cases h

/-- A command's read acts only where a byte is stored. -/
theorem count_ne_zero_of_wantsRead (h : wantsRead i r = true) : r.count.toNat ≠ 0 := by
  cases i with
  | deq => exact (readAccepted_iff r).mp h
  | enqdeq d => exact (readAccepted_iff r).mp h
  | nop => cases h
  | enq d => cases h
  | rst => cases h

theorem writeAccepted_eq_decide (r : Regs aw) : writeAccepted r = decide (r.count.toNat ≠ 2 ^ aw) := decide_not.symm

theorem readAccepted_eq_decide (r : Regs aw) : readAccepted r = decide (r.count.toNat ≠ 0) := decide_not.symm

end Acts

-- The invariant (R148, R149).

/-- Every command keeps the invariant: RST establishes it, and any other is one edge in which each port acts only
where it may. -/
theorem exec_inv {i : Instr} {s t : State} (hinv : s.Inv) (h : exec i s = .next t) : t.Inv := by
  obtain ⟨-, rfl⟩ | ⟨-, r, hb, rfl⟩ := exec_next h
  case inl => exact State.inv_of_live rfl (Regs.reset_inv s.cfg.aw)
  case inr =>
    exact State.inv_of_live rfl
      (portEdge_inv (hinv r hb) _ count_ne_capacity_of_wantsWrite count_ne_zero_of_wantsRead)

/-- Taking the cycle's word writes no register. -/
theorem consumeWord_inv {s : State} (hinv : s.Inv) : (consumeWord s).Inv := by
  obtain ⟨ws, n, hs⟩ := consumeWord_eq s
  rw [hs]
  exact hinv

/-- Settles O29: a step is a command after the word is taken, RST ends in the reset registers from any state, and the
contents are as many as the count. -/
theorem invariantIsKept : Obligations.InvariantIsKept := by
  refine ⟨fun s t hinv h => exec_inv (consumeWord_inv hinv) h, fun s t h => ?reset, fun s r hinv hb => ?reading⟩
  case reset =>
    obtain rfl : _ = t := Host.Outcome.next.inj ((exec_rst s).symm.trans h)
    exact State.inv_of_live rfl (Regs.reset_inv s.cfg.aw)
  case reading =>
    obtain ⟨-, hle, hptr⟩ := hinv r hb
    exact ⟨hle, (length_contentsOf r).symm, hptr⟩

-- ENQDEQ (R140, R142).

theorem decode_of_enqdeq_word {w : CmdWord} (h : w &&& 0x700 = 0x300) : decode w = .enqdeq (w.extractLsb' 0 8) :=
  (decode_of_and_0x700 (rd := true) (wr := true) h).trans (congrArg Instr.enqdeq (dataField_eq_setWidth w).symm)

/-- ENQDEQ is one edge in which each port acts when the pre-edge count accepts it. -/
theorem exec_enqdeq_live {s : State} {r : Regs s.cfg.aw} (hb : s.block = .live r) (d : Byte) :
    exec (.enqdeq d) s =
      .next (s.latch (portEdge (writeAccepted r) (readAccepted r) d r)
        (outputsOf (writeAccepted r) (readAccepted r) r)) :=
  exec_live (by nofun) hb

/-- Settles O20: ENQDEQ's edge, register by register. -/
theorem enqdeqResult : Obligations.EnqdeqResult := by
  refine ⟨fun w => decode_of_enqdeq_word, fun s r d wa ra hb hinv hwa hra => ?_⟩
  rw [← writeAccepted_eq_decide] at hwa
  rw [← readAccepted_eq_decide] at hra
  subst hwa hra
  refine ⟨_, ?edge, readCell_portEdge hinv d, ?wrPtr, ?rdPtr,
    portEdge_count_toNat hinv d (writeAccepted_iff r).mp⟩
  case edge =>
    rw [exec_enqdeq_live hb, writeAccepted, readAccepted, Bool.not_not, Bool.not_not]
    rfl
  case wrPtr => rw [portEdge_wrPtr, apply_ite BitVec.toNat, nextIndex_toNat]
  case rdPtr => rw [portEdge_rdPtr, apply_ite BitVec.toNat, nextIndex_toNat]

/-- Settles O22: both ports act only at counts strictly between 0 and C, where the indices differ, and the byte read
is the pre-edge head. -/
theorem noSameCellAccess : Obligations.NoSameCellAccess := by
  refine ⟨fun s t r d hb hinv h hw hr hptr => ?cells, fun s t t' d d' h h' => ?data⟩
  case cells =>
    obtain rfl : _ = t := Host.Outcome.next.inj ((exec_enqdeq_live hb d).symm.trans h)
    obtain hempty | hfull := ((indexEqualityIsEmptyOrFull s.cfg.aw r hinv).1).mp hptr
    · exact (readAccepted_iff r).mp hr hempty
    · exact (writeAccepted_iff r).mp hw hfull
  case data =>
    obtain ⟨hrst, -⟩ | ⟨-, r, hb, rfl⟩ := exec_next h
    · cases hrst
    · obtain rfl : _ = t' := Host.Outcome.next.inj ((exec_enqdeq_live hb d').symm.trans h')
      rfl

-- A driven cycle as one step function (R144, R145).

section Drive
variable {s : State} {r : Regs s.cfg.aw} {i : Input}

theorem resetOutputs_live (hb : s.block = .live r) : resetOutputs s = outputsOf false false r := by
  rw [resetOutputs, lengthOf_live hb]
  rfl

/-- A reset cycle on live registers ends in the reset registers and acks neither port (R80). -/
theorem driveCycle_rst_live (hb : s.block = .live r) (hi : i.rst = true) :
    driveCycle i s = .next (s.latch (Regs.reset s.cfg.aw) (outputsOf false false r)) := by
  rw [driveCycle_rst s hi, drawsAfterReset_live hb, resetOutputs_live hb]

/-- A cycle without reset is one edge, in which a port acts just when it is requested and the pre-edge count accepts
it. -/
theorem exists_driveCycle_acks (hb : s.block = .live r) (hi : i.rst = false) :
    ∃ wa ra, wa = (i.wrEn && writeAccepted r) ∧ ra = (i.rdEn && readAccepted r) ∧
      driveCycle i s = .next (s.latch (portEdge wa ra i.wrData r) (outputsOf wa ra r)) :=
  ⟨_, _, rfl, rfl, driveCycle_live hb hi⟩

end Drive

section BlockCycle
variable {aw : Nat} {i : Input} (r : Regs aw)

theorem blockCycle_of_rst (hi : i.rst = true) : blockCycle i r = (Regs.reset aw, outputsOf false false r) := if_pos hi

theorem blockCycle_of_not_rst (hi : i.rst = false) :
    blockCycle i r =
      (portEdge (i.wrEn && writeAccepted r) (i.rdEn && readAccepted r) i.wrData r,
        outputsOf (i.wrEn && writeAccepted r) (i.rdEn && readAccepted r) r) := by
  rw [blockCycle, if_neg (by simp [hi]), writeAccepted_eq_decide, readAccepted_eq_decide]
  rfl

end BlockCycle

/-- Settles O24: R144's two branches are the reset cycle and the edge of a cycle without reset. -/
theorem commandsAreCasesOfTheCycle : Obligations.CommandsAreCasesOfTheCycle := by
  intro i s r hb
  cases hi : i.rst with
  | true => rw [driveCycle_rst_live hb hi, blockCycle_of_rst r hi]
  | false => rw [driveCycle_live hb hi, blockCycle_of_not_rst r hi]

/-- Settles O25: a reset cycle acks neither port, and in any other each port's ack is its request and its own
acceptance. -/
theorem portsAreIndependent : Obligations.PortsAreIndependent := by
  intro i s r hb
  obtain ⟨hfull, hempty⟩ := accepted_eq_not_lengthOf hb
  rw [← hfull, ← hempty, ← writeAccepted_eq_decide, ← readAccepted_eq_decide]
  cases hi : i.rst with
  | true => exact ⟨_, driveCycle_rst_live hb hi, rfl, rfl, rfl, rfl⟩
  | false => exact ⟨_, driveCycle_live hb hi, rfl, rfl, rfl, rfl⟩

-- The count and the contents after a cycle (R143, R147).

section Accepted
variable {aw : Nat} {r : Regs aw} {i : Input} {wa ra : Bool}

theorem count_ne_capacity_of_ack (hwa : wa = (i.wrEn && writeAccepted r)) (h : wa = true) :
    r.count.toNat ≠ 2 ^ aw :=
  (writeAccepted_iff r).mp (Bool.and_elim_right (hwa ▸ h))

theorem count_ne_zero_of_ack (hra : ra = (i.rdEn && readAccepted r)) (h : ra = true) : r.count.toNat ≠ 0 :=
  (readAccepted_iff r).mp (Bool.and_elim_right (hra ▸ h))

/-- A byte written while another is read joins the tail as the head byte leaves (R147). -/
theorem contentsOf_portEdge_both (hinv : r.Inv) (hroom : r.count.toNat ≠ 2 ^ aw) (hstored : r.count.toNat ≠ 0)
    (d : Byte) :
    ∃ q, contentsOf r = headByte r :: q ∧ contentsOf (portEdge true true d r) = q ++ [d] := by
  obtain ⟨q, hq⟩ := contentsOf_eq_head_cons hstored
  refine ⟨q, hq, ?_⟩
  rw [contentsOf_portEdge hinv d (fun _ => hroom) fun _ => hstored, hq]
  rfl

end Accepted

/-- Settles O26: the edge's count update is exact, because each port acts only where it may. -/
theorem countCountsTheAcks : Obligations.CountCountsTheAcks := by
  intro i s r hb hinv hi
  obtain ⟨wa, ra, hwa, hra, hdrive⟩ := exists_driveCycle_acks hb hi
  have hw : wa = true → r.count.toNat ≠ 2 ^ s.cfg.aw := count_ne_capacity_of_ack hwa
  have hr : ra = true → r.count.toNat ≠ 0 := count_ne_zero_of_ack hra
  have hcount := portEdge_count_toNat (ra := ra) hinv i.wrData hw
  obtain ⟨-, hle', -⟩ := portEdge_inv hinv i.wrData hw hr
  obtain ⟨-, hle, -⟩ := hinv
  refine ⟨_, _, hdrive, ?count, hle', fun h => Nat.lt_of_le_of_ne hle (hw h), fun h => Nat.pos_of_ne_zero (hr h)⟩
  case count =>
    rw [hcount, outputsOf_wrAck, outputsOf_rdAck]
    cases ra with
    | false => simp
    | true =>
      have hstored := hr rfl
      simp only [reduceIte]
      split <;> omega

/-- Settles O27: a reset leaves no contents, and without reset the four pairs of acks are the four edges. -/
theorem contentsLaws : Obligations.ContentsLaws := by
  intro i s r hb hinv
  cases hi : i.rst with
  | true => exact ⟨_, _, driveCycle_rst_live hb hi, fun _ => contentsOf_reset s.cfg.aw, by simp⟩
  | false =>
    obtain ⟨wa, ra, hwa, hra, hdrive⟩ := exists_driveCycle_acks hb hi
    have hw : wa = true → r.count.toNat ≠ 2 ^ s.cfg.aw := count_ne_capacity_of_ack hwa
    have hr : ra = true → r.count.toNat ≠ 0 := count_ne_zero_of_ack hra
    refine ⟨_, _, hdrive, by nofun, fun _ => ?none, fun _ => ?write, fun _ => ?read, fun _ => ?both⟩
    all_goals
      rw [outputsOf_wrAck, outputsOf_rdAck]
      rintro rfl rfl
    case none => rw [portEdge_idle]
    case write =>
      obtain ⟨-, -, happend⟩ := portEdge_write hinv (hw rfl) i.wrData
      exact happend
    case read =>
      obtain ⟨-, -, hhead⟩ := portEdge_read hinv (hr rfl) i.wrData
      exact hhead
    case both => exact contentsOf_portEdge_both hinv (hw rfl) (hr rfl) i.wrData

-- The serial order on the sequential queue (R141, R150).

/-- A call of the producer appends its byte when it makes one and there is room. -/
theorem serialEnqueue_eq (c : Nat) (i : Input) (q : List Byte) :
    serialEnqueue c i q =
      (i.wrEn && decide (q.length < c), q ++ if (i.wrEn && decide (q.length < c)) = true then [i.wrData] else []) := by
  rw [serialEnqueue, queueEnqueue]
  cases i.wrEn with
  | false => simp
  | true => by_cases h : q.length < c <;> simp [h]

/-- A call of the consumer takes the head of the queue, if it makes one and there is a head. -/
theorem serialDequeue_eq (i : Input) (q : List Byte) :
    serialDequeue i q = (if i.rdEn then q.head? else none, q.drop (if i.rdEn then 1 else 0)) := by
  rw [serialDequeue]
  cases i.rdEn with
  | false => rfl
  | true => cases q <;> rfl

section Serial
variable {aw : Nat} {r : Regs aw} {i : Input} {wa ra : Bool} (hinv : r.Inv)
  (hwa : wa = (i.wrEn && writeAccepted r)) (hra : ra = (i.rdEn && readAccepted r))
include hra

/-- The consumer's call on the contents: acked as the cycle's read, with the head byte. -/
theorem serialDequeue_contentsOf :
    serialDequeue i (contentsOf r) =
      (if ra then some (headByte r) else none, (contentsOf r).drop (if ra then 1 else 0)) := by
  rw [serialDequeue_eq, hra]
  by_cases hempty : r.count.toNat = 0
  · rw [contentsOf_eq_nil hempty, (accepted_of_count_eq_zero hempty).2]
    simp
  · obtain ⟨q, hq⟩ := contentsOf_eq_head_cons hempty
    rw [hq, readAccepted_of_contentsOf_cons hq, Bool.and_true]
    rfl

include hinv hwa

/-- When the FIFO is not full, the producer's call after the consumer's is acked as the cycle's write and leaves the
cycle's contents. -/
theorem serialEnqueue_after_dequeue (hroom : r.count.toNat ≠ 2 ^ aw) :
    serialEnqueue (2 ^ aw) i ((contentsOf r).drop (if ra then 1 else 0)) =
      (wa, contentsOf (portEdge wa ra i.wrData r)) := by
  have hr : ra = true → r.count.toNat ≠ 0 := count_ne_zero_of_ack hra
  have hlen : ((contentsOf r).drop (if ra then 1 else 0)).length < 2 ^ aw := by
    obtain ⟨-, hle, -⟩ := hinv
    rw [List.length_drop, length_contentsOf]
    omega
  have hdrop : (if ra then 1 else 0) ≤ (contentsOf r).length := by
    rw [length_contentsOf]
    cases ra with
    | false => exact Nat.zero_le _
    | true => exact Nat.pos_of_ne_zero (hr rfl)
  have hack : (i.wrEn && decide (((contentsOf r).drop (if ra then 1 else 0)).length < 2 ^ aw)) = wa := by
    rw [hwa, (writeAccepted_iff r).mpr hroom, decide_eq_true hlen]
  rw [serialEnqueue_eq, hack, contentsOf_portEdge hinv _ (fun _ => hroom) hr, List.drop_append_of_le_length hdrop]

/-- When the FIFO is not empty, the producer's call is acked as the cycle's write, and the consumer's call after it as
the cycle's read, with the same byte and the cycle's contents. -/
theorem serialDequeue_after_enqueue (hstored : r.count.toNat ≠ 0) :
    ∃ q, serialEnqueue (2 ^ aw) i (contentsOf r) = (wa, q) ∧
      serialDequeue i q = (if ra then some (headByte r) else none, contentsOf (portEdge wa ra i.wrData r)) := by
  have hw : wa = true → r.count.toNat ≠ 2 ^ aw := count_ne_capacity_of_ack hwa
  have hack : (i.wrEn && decide ((contentsOf r).length < 2 ^ aw)) = wa := by
    obtain ⟨-, hle, -⟩ := hinv
    rw [hwa, writeAccepted_eq_decide, length_contentsOf]
    congr 1
    exact decide_eq_decide.mpr (Nat.lt_iff_le_and_ne.trans (and_iff_right hle))
  have hreq : i.rdEn = ra := by rw [hra, (readAccepted_iff r).mpr hstored, Bool.and_true]
  obtain ⟨q, hq⟩ := contentsOf_eq_head_cons hstored
  refine ⟨contentsOf r ++ if wa then [i.wrData] else [], ?_, ?_⟩
  · rw [serialEnqueue_eq, hack]
  · rw [serialDequeue_eq, hreq, contentsOf_portEdge hinv _ hw fun _ => hstored, hq]
    rfl

end Serial

/-- Settles O28: below C the consumer's call may go first, above 0 the producer's. -/
theorem cycleSerialises : Obligations.CycleSerialises := by
  intro i s r hb hinv hi
  obtain ⟨wa, ra, hwa, hra, hdrive⟩ := exists_driveCycle_acks hb hi
  have hdata : (if ra then some (outputsOf wa ra r).rdData else none) = if ra then some (headByte r) else none := by
    cases ra <;> rfl
  refine ⟨_, _, hdrive, ?_⟩
  rw [outputsOf_rdAck, outputsOf_wrAck, hdata]
  exact ⟨fun hroom => ⟨_, serialDequeue_contentsOf hra, serialEnqueue_after_dequeue hinv hwa hra hroom⟩,
    serialDequeue_after_enqueue hinv hwa hra⟩

/-- Settles O21: ENQDEQ's two calls are those of the merged cycle that requests both ports, so its serial orders are
that cycle's; which ports act at each occupancy gives the acks and the count. -/
theorem enqdeqAtEachOccupancy : Obligations.EnqdeqAtEachOccupancy := by
  intro s r d hb hinv
  have hC : 0 < 2 ^ s.cfg.aw := Nat.two_pow_pos s.cfg.aw
  refine ⟨_, _, exec_enqdeq_live hb d, fun hempty => ?empty, fun hlow hhigh => ?between, fun hfull => ?full⟩
  case empty =>
    have hroom : r.count.toNat ≠ 2 ^ s.cfg.aw := hempty ▸ hC.ne
    obtain ⟨hw, hr⟩ := accepted_of_count_eq_zero hempty
    rw [hw, hr]
    obtain ⟨-, hcount, -⟩ := portEdge_write hinv hroom d
    exact ⟨rfl, rfl, rfl, by rw [hcount, hempty],
      serialDequeue_contentsOf (i := mergeHalves false (.enqueue d) .dequeue) hr.symm,
      serialEnqueue_after_dequeue (i := mergeHalves false (.enqueue d) .dequeue) hinv hw.symm hr.symm hroom⟩
  case between =>
    have hroom : r.count.toNat ≠ 2 ^ s.cfg.aw := by omega
    have hstored : r.count.toNat ≠ 0 := by omega
    have hw := (writeAccepted_iff r).mpr hroom
    have hr := (readAccepted_iff r).mpr hstored
    rw [hw, hr]
    have hcount := portEdge_count_toNat (wa := true) (ra := true) hinv d fun _ => hroom
    exact ⟨rfl, rfl, BitVec.eq_of_toNat_eq hcount,
      ⟨_, serialDequeue_contentsOf (i := mergeHalves false (.enqueue d) .dequeue) hr.symm,
        serialEnqueue_after_dequeue (i := mergeHalves false (.enqueue d) .dequeue) hinv hw.symm hr.symm hroom⟩,
      serialDequeue_after_enqueue (i := mergeHalves false (.enqueue d) .dequeue) hinv hw.symm hr.symm hstored⟩
  case full =>
    have hstored : r.count.toNat ≠ 0 := hfull ▸ hC.ne'
    obtain ⟨hw, hr⟩ := accepted_of_count_eq_capacity hfull
    rw [hw, hr]
    obtain ⟨-, hcount, hcontents⟩ := portEdge_read hinv hstored d
    refine ⟨rfl, rfl, hfull ▸ hcount, ?_, ?_⟩
    · rw [queueEnqueue, length_contentsOf, hfull, if_neg (lt_irrefl _)]
    · rw [hcontents]
      rfl

-- The occupancy law (R152).

/-- Settles O41: by the FIFO law the accepted bytes are the returned ones and the contents, of which there are
`count`. -/
theorem occupancyLaw : Obligations.OccupancyLaw := by
  intro n s h hrst
  obtain ⟨t, h', hrun, r, hb, ⟨-, hle, -⟩, hlaw⟩ := exists_runCycles_fifoInv_of_rstBit n h hrst
  refine ⟨t, h', r, hrun, hb, ?_, hle⟩
  rw [hlaw, List.length_append, length_contentsOf]
  omega

end Sys2Proof.Machine
end

section
/-! PROOFS. What a step can answer and what a cycle reports (60_exceptions.md R160, R161): a live block never stops,
and the status codes are read off the acks. -/

namespace Sys2Proof.Machine

-- No traps (R160, R189).

theorem State.isLive_iff {s : State} : s.isLive = true ↔ ∃ r, s.block = .live r := by
  rw [State.isLive]
  cases s.block <;> simp

/-- A live block takes its step, whatever the word, and stays live: a reset word leaves the reset registers, any other
word is one edge. -/
theorem exists_step_isLive {s : State} (hlive : s.isLive = true) : ∃ t, step s = .next t ∧ t.isLive = true := by
  obtain ⟨r, hb⟩ := State.isLive_iff.mp hlive
  cases hrst : rstBit (fetchWord s) with
  | true =>
    obtain ⟨o, ws, n, m, hstep⟩ := step_of_rstBit hrst
    exact ⟨_, hstep, rfl⟩
  | false =>
    obtain ⟨ws, n, hstep⟩ := step_of_not_rstBit rfl hrst hb
    exact ⟨_, hstep, rfl⟩

/-- Settles O15, by induction on the number of steps: each one is answered and leaves the block live. -/
theorem liveBlockNeverStops : Obligations.LiveBlockNeverStops := by
  intro n
  induction n with
  | zero => exact fun s hlive => ⟨s, rfl, hlive⟩
  | succ n ih =>
    intro s hlive
    obtain ⟨t, hstep, hlive'⟩ := exists_step_isLive hlive
    rw [core_run_succ n hstep]
    exact ih t hlive'

-- The status codes (R161).

section Status
variable {aw : Nat} {i : Input} (o : Output aw)

theorem writeStatusOf_idle (h : i.wrEn = false ∨ i.rst = true) : writeStatusOf i o = .idle := by
  obtain hi | hi := h <;> simp [writeStatusOf, hi]

theorem readStatusOf_idle (h : i.rdEn = false ∨ i.rst = true) : readStatusOf i o = .idle := by
  obtain hi | hi := h <;> simp [readStatusOf, hi]

theorem writeStatusOf_request (hreq : i.wrEn = true) (hrst : i.rst = false) :
    writeStatusOf i o = if o.wrAck then .ok else .full := by
  simp [writeStatusOf, hreq, hrst]

theorem readStatusOf_request (hreq : i.rdEn = true) (hrst : i.rst = false) :
    readStatusOf i o = if o.rdAck then .ok else .empty := by
  simp [readStatusOf, hreq, hrst]

end Status

/-- The only state a cycle without reset can answer on live registers. -/
theorem eq_latch_of_driveCycle {i : Input} {s t : State} {r : Regs s.cfg.aw} (hb : s.block = .live r)
    (hrst : i.rst = false) (h : driveCycle i s = .next t) :
    t = s.latch (portEdge (i.wrEn && writeAccepted r) (i.rdEn && readAccepted r) i.wrData r)
      (outputsOf (i.wrEn && writeAccepted r) (i.rdEn && readAccepted r) r) :=
  Host.Outcome.next.inj (h.symm.trans (driveCycle_live hb hrst))

/-- Settles O37: without a request or in a reset the code is idle; otherwise it is the ack, which the pre-edge count
decides. -/
theorem statusCodes : Obligations.StatusCodes := by
  intro i s t r hb h
  refine ⟨writeStatusOf_idle _, fun hreq hrst hroom => ?wrOk, fun hreq hrst hfull => ?wrFull,
    readStatusOf_idle _, fun hreq hrst hstored => ?rdOk, fun hreq hrst hempty => ?rdEmpty⟩
  all_goals obtain rfl := eq_latch_of_driveCycle hb hrst h
  case wrOk =>
    have hacc : writeAccepted r = true := (writeAccepted_iff r).mpr hroom
    rw [writeStatusOf_request _ hreq hrst]
    simp [hreq, hacc]
  case wrFull =>
    have hacc : writeAccepted r = false := (accepted_of_count_eq_capacity hfull).1
    rw [writeStatusOf_request _ hreq hrst]
    exact ⟨by simp [hacc], (isFull_iff r).mpr hfull⟩
  case rdOk =>
    have hacc : readAccepted r = true := (readAccepted_iff r).mpr hstored
    rw [readStatusOf_request _ hreq hrst]
    simp [hreq, hacc, headByte, headIndex]
  case rdEmpty =>
    have hacc : readAccepted r = false := (accepted_of_count_eq_zero hempty).2
    rw [readStatusOf_request _ hreq hrst]
    exact ⟨by simp [hacc], (isEmpty_iff r).mpr hempty, by simp [hacc]⟩

end Sys2Proof.Machine
end

section
/-! PROOFS. Before and right after the first reset (70_reset_and_hazards.md R182, R183; 92_eei_decisions.md D7): what a
cycle in state `Unreset` can answer, and both ports in the reset state. -/

namespace Sys2Proof.Machine

-- State Unreset (R182).

section Unreset
variable {s : State} (hb : s.block = .unreset)
include hb

/-- Before the first reset LENGTH shows draws (R83, R182). -/
theorem lengthOf_unreset :
    lengthOf s =
      { countO := Config.freeCount s.cfg.aw s.outputDraws, full := Config.freeFull s.outputDraws
        empty := Config.freeEmpty s.outputDraws } := by
  simp [lengthOf, hb]

theorem drawsAfterReset_unreset : drawsAfterReset s = s.outputDraws + 1 := by
  simp [drawsAfterReset, hb]

/-- Taking the cycle's word does not end the state `Unreset`. -/
theorem consumeWord_block_unreset : (consumeWord s).block = .unreset := by
  obtain ⟨ws, n, hs⟩ := consumeWord_eq s
  rw [hs]
  exact hb

/-- A cycle in state `Unreset` that is answered ran RST, since every other command faults, and leaves the block live. -/
theorem step_unreset_next {t : State} (h : step s = .next t) :
    decode (fetchWord s) = .rst ∧ t.isLive = true := by
  obtain ⟨hrst, rfl⟩ | ⟨-, r, hlive, -⟩ := exec_next h
  case inl => exact ⟨hrst, rfl⟩
  case inr =>
    rw [consumeWord_block_unreset hb] at hlive
    cases hlive

end Unreset

/-- Settles O13: RST's outputs are LENGTH's draws, any other command faults, and so a cycle that is answered ran
RST. -/
theorem beforeTheFirstReset : Obligations.BeforeTheFirstReset := by
  refine fun s hb => ⟨?rst, fun i hi => exec_unreset hi hb, fun t => step_unreset_next hb⟩
  case rst => rw [exec_rst, resetOutputs, lengthOf_unreset hb, drawsAfterReset_unreset hb]

-- The reset state (R183).

/-- Settles O14: the count is 0, so the read finds no byte, and 0 is not C, so the write finds room. -/
theorem bothPortsUsableAfterReset : Obligations.BothPortsUsableAfterReset := by
  intro cfg d
  have hb := State.resetFor_block cfg
  have hempty : (Regs.reset cfg.aw).count.toNat = 0 := rfl
  have hroom : (Regs.reset cfg.aw).count.toNat ≠ 2 ^ cfg.aw := (Nat.two_pow_pos cfg.aw).ne
  exact ⟨by rw [lengthOf_resetFor], ⟨_, exec_deq_of_empty hb hempty, rfl, rfl⟩,
    _, exec_enq_of_room hb hroom d, rfl⟩

end Sys2Proof.Machine
end
